-- ==== Sys2Proof/Word.lean ====
section
/-! DEFINITION. The words of the spec: bytes, the host command word, times, and the payload side port. -/

namespace Sys2Proof

/-- A byte, 8 bits (00_scope.md R9). -/
abbrev Byte := BitVec 8

/-- A 16-bit value: a length prefix, an option mask, a manufacturer word (20_memory.md R52). -/
abbrev Half := BitVec 16

/-- The host command word, 32 bits (30_encoding.md R85). -/
abbrev HostWord := BitVec 32

/-- A time or a deadline: `TIME_W` = 32 bits, unsigned, wrapping (00_scope.md R7, 10_state.md R25). -/
abbrev Time := BitVec 32

/-- A timeout operand: `TIME_W - 1` = 31 bits (41_transaction.md R133). -/
abbrev Timeout := BitVec 31

/-- A command id, 7 bits (30_encoding.md R73). -/
abbrev CommandId := BitVec 7

/-- The payload side port: one byte lane for each index the 9-bit length field `n` can reach, 0 to 510
(30_encoding.md R85). SEND takes the first `n` lanes; the others carry nothing. Entry 12. -/
abbrev PayloadPort := Vector Byte 511

end Sys2Proof
end

