-- ==== Sys2Proof/Config.lean ====
section
/-! DEFINITION. The parameters of 00_scope.md R7. Those the source fixes are constants; those the spec decides have the
spec's default here (entries 6 to 8). `QDEPTH` is the length of the slot arena in State, and this is its default. -/

namespace Sys2Proof

/-- Byte order of the option mask (92_eei_decisions.md D43). -/
inductive MaskOrder where
  | be
  | le
  deriving DecidableEq, Repr

namespace Config

/-- `MAX_FRAME_LEN`: the largest wire frame in bytes. -/
abbrev maxFrameLen : Nat := 512

/-- `MIN_RX_FRAME_LEN`: the smallest length prefix the parser accepts. -/
abbrev minRxFrameLen : Nat := 5

/-- `MAX_PAYLOAD`: the largest payload ENCODE accepts. -/
abbrev maxPayload : Nat := 508

/-- `LEN_OVERHEAD`: length field minus payload length. -/
abbrev lenOverhead : Nat := 4

/-- `RESP_BIT`: the response marker ORed into the expected id. -/
abbrev respBit : Byte := 0x80#8

/-- `NOTIFY_ID`: the reserved unsolicited-notification id. -/
abbrev notifyId : Byte := 0xE0#8

/-- `DEFAULT_TIMEOUT`, in ticks. -/
abbrev defaultTimeout : Timeout := 3000#31

/-- `TICK_MS`: milliseconds of wall time for one TICK. No rule of the block reads it (43_host_port.md R204). -/
abbrev tickMs : Nat := 1

/-- `QDEPTH`: the default number of expectation slots. The model reads the depth off the arena itself (entry 6). -/
abbrev qdepth : Nat := 8

/-- `TS_DIV`: timestamp ticks per second. -/
abbrev tsDiv : Nat := 32768

/-- `MFR_BIAS`: added to each 5-bit manufacturer group. -/
abbrev mfrBias : Byte := 64#8

/-- `RXBUF_CAP`: the RX buffer's capacity in bytes. -/
abbrev rxBufCap : Nat := 512

/-- `MASK_ORDER`, default big-endian (92_eei_decisions.md D43). DESIGN CHOICE of the spec, unsafe (entry 8). -/
def maskOrder : MaskOrder := .be

/-- What a byte of the RX buffer that nothing has written reads as. DESIGN CHOICE, unsafe (entry 4): the spec leaves it
unspecified and says it is never read (10_state.md R38). -/
def unwrittenByte : Byte := 0x00#8

end Config

end Sys2Proof
end

