-- ==== Sys2Proof/Syntax.lean ====
section
/-! DEFINITION. The instructions: one constructor per row of spec/opcode_table.json, host-port operations (10_state.md
R32) and internal operations; and the shape of a host command and of a row of the opcode table. -/

namespace Sys2Proof

/-- Every operation of WMBUS-CORE. The first five are the host-port operations of 10_state.md R32. The last five are
the internal operations, which have no host word (30_encoding.md R86) and run on their own only through `exec`
(entry 9). -/
inductive Instr where
  /-- FEED_BYTE: one byte from the link (40_frame_codec.md R102). -/
  | feedByte (b : Byte)
  /-- SEND: a command; `none` takes `DEFAULT_TIMEOUT` (41_transaction.md R130). -/
  | send (id : CommandId) (payload : List Byte) (timeout : Option Timeout)
  /-- TICK: the timer advances one tick (41_transaction.md R143). -/
  | tick
  /-- RESET: return to the reset state (43_host_port.md R201). -/
  | reset
  /-- ILLEGAL: a host command word that spells no operation (43_host_port.md R202). -/
  | illegal (w : HostWord)
  /-- CHECKSUM, internal (40_frame_codec.md R100). -/
  | checksum (bytes : List Byte)
  /-- ENCODE, internal (40_frame_codec.md R101). -/
  | encode (id : CommandId) (payload : List Byte)
  /-- ON_FRAME, internal (41_transaction.md R135). -/
  | onFrame (frame : List Byte)
  /-- EXPIRE, internal (41_transaction.md R144). -/
  | expire (slot : Nat)
  /-- DECODE_TELEGRAM, internal (42_telegram.md R173). -/
  | decodeTelegram (payload : List Byte)
  deriving DecidableEq, Repr

/-- One host command as the host presents it: the word and the two side ports (30_encoding.md R85). -/
structure HostCommand where
  word : HostWord
  payload : PayloadPort
  timeout : Timeout
  deriving DecidableEq, Repr

/-- One host-word row of spec/opcode_table.json: a word is of the row when `word &&& mask = pattern`. -/
structure TableRow where
  mnemonic : String
  mask : HostWord
  pattern : HostWord
  deriving DecidableEq, Repr

/-- The mnemonic of an instruction in spec/opcode_table.json. -/
def Instr.mnemonic : Instr → String
  | .feedByte _ => "FEED_BYTE"
  | .send _ _ _ => "SEND"
  | .tick => "TICK"
  | .reset => "RESET"
  | .illegal _ => "ILLEGAL"
  | .checksum _ => "CHECKSUM"
  | .encode _ _ => "ENCODE"
  | .onFrame _ => "ON_FRAME"
  | .expire _ => "EXPIRE"
  | .decodeTelegram _ => "DECODE_TELEGRAM"

/-- The host-port operations, which the environment can present (10_state.md R32). -/
def Instr.isHostOp : Instr → Bool
  | .feedByte _ => true
  | .send _ _ _ => true
  | .tick => true
  | .reset => true
  | .illegal _ => true
  | .checksum _ => false
  | .encode _ _ => false
  | .onFrame _ => false
  | .expire _ => false
  | .decodeTelegram _ => false

end Sys2Proof
end

