-- ==== Sys2Proof/Decode.lean ====
section
/-! DEFINITION. The decoder of host commands (30_encoding.md R85, R86), total on every word, and the encoder. A word that
spells no operation is rejected by name: it decodes to ILLEGAL of that word. -/

namespace Sys2Proof

/-- The operation code `OP = w[31:28]` of a host word (30_encoding.md R85). -/
def HostWord.op (w : HostWord) : BitVec 4 := w.extractLsb' 28 4

/-- A FEED_BYTE word: `OP = 0x1` and `w[27:8]` zero (30_encoding.md R85). -/
def HostWord.isFeedByte (w : HostWord) : Bool := HostWord.op w == 0x1#4 && w.extractLsb' 8 20 == 0#20

/-- A SEND word: `OP = 0x2` and `w[27:17]` zero (30_encoding.md R85). -/
def HostWord.isSend (w : HostWord) : Bool := HostWord.op w == 0x2#4 && w.extractLsb' 17 11 == 0#11

/-- A TICK word: `OP = 0x3` and `w[27:0]` zero (30_encoding.md R85). -/
def HostWord.isTick (w : HostWord) : Bool := HostWord.op w == 0x3#4 && w.extractLsb' 0 28 == 0#28

/-- A RESET word: `OP = 0xF` and `w[27:0]` zero (30_encoding.md R85). -/
def HostWord.isReset (w : HostWord) : Bool := HostWord.op w == 0xF#4 && w.extractLsb' 0 28 == 0#28

/-- A word that spells an operation: the legal words (30_encoding.md R85, R86). -/
def HostWord.isLegal (w : HostWord) : Bool :=
  HostWord.isFeedByte w || HostWord.isSend w || HostWord.isTick w || HostWord.isReset w

/-- SEND's payload operand: the first `n = w[16:8]` lanes of the payload side port (30_encoding.md R85). -/
def sendPayloadOf (w : HostWord) (lanes : PayloadPort) : List Byte :=
  lanes.toList.take (w.extractLsb' 8 9).toNat

/-- SEND's timeout operand: the timeout side port when `T = w[7]` is 1, else none (30_encoding.md R85). -/
def sendTimeoutOf (w : HostWord) (port : Timeout) : Option Timeout :=
  if w.getLsbD 7 then some port else none

/-- The operation a host command spells (30_encoding.md R85, R86). -/
def decode (c : HostCommand) : Instr :=
  if HostWord.isFeedByte c.word then .feedByte (c.word.extractLsb' 0 8)
  else if HostWord.isSend c.word then
    .send (c.word.extractLsb' 0 7) (sendPayloadOf c.word c.payload) (sendTimeoutOf c.word c.timeout)
  else if HostWord.isTick c.word then .tick
  else if HostWord.isReset c.word then .reset
  else .illegal c.word

/-- The largest payload length the 9-bit field `n` expresses (30_encoding.md R85, U26). -/
def maxHostPayload : Nat := 511

/-- The payload side port with the bytes of `bs` on its first lanes. The host may put anything on the other lanes; the
encoder puts zeros there (entry 12). -/
def drivePayload (bs : List Byte) : PayloadPort :=
  ⟨((bs ++ List.replicate maxHostPayload 0#8).take maxHostPayload).toArray, by
    rw [List.size_toArray, List.length_take, List.length_append, List.length_replicate, maxHostPayload]
    omega⟩

/-- A FEED_BYTE word (30_encoding.md R85). -/
def feedByteWord (b : Byte) : HostWord := 0x1#4 ++ 0#20 ++ b

/-- A SEND word (30_encoding.md R85). -/
def sendWord (n : BitVec 9) (timeoutGiven : Bool) (id : CommandId) : HostWord :=
  0x2#4 ++ 0#11 ++ n ++ BitVec.ofBool timeoutGiven ++ id

/-- The host command of an instruction, none for one that no host word spells: an internal operation (30_encoding.md
R86) or a SEND whose payload length the field `n` cannot express (U26). -/
def encode : Instr → Option HostCommand
  | .feedByte b => some ⟨feedByteWord b, drivePayload [], 0#31⟩
  | .send id payload timeout =>
    if payload.length ≤ maxHostPayload then
      some ⟨sendWord (BitVec.ofNat 9 payload.length) timeout.isSome id, drivePayload payload, timeout.getD 0#31⟩
    else none
  | .tick => some ⟨0x3#4 ++ 0#28, drivePayload [], 0#31⟩
  | .reset => some ⟨0xF#4 ++ 0#28, drivePayload [], 0#31⟩
  | .illegal w => some ⟨w, drivePayload [], 0#31⟩
  | .checksum _ => none
  | .encode _ _ => none
  | .onFrame _ => none
  | .expire _ => none
  | .decodeTelegram _ => none

/-- The rows of spec/opcode_table.json that have a pattern of their own, as its "mask" and "match" give them. ILLEGAL is
every word of none of them. -/
def opcodeTable : List TableRow :=
  [⟨"FEED_BYTE", 0xFFFFFF00#32, 0x10000000#32⟩,
   ⟨"SEND", 0xFFFE0000#32, 0x20000000#32⟩,
   ⟨"TICK", 0xFFFFFFFF#32, 0x30000000#32⟩,
   ⟨"RESET", 0xFFFFFFFF#32, 0xF0000000#32⟩]

/-- A word is of a row of the table. -/
def rowMatches (w : HostWord) (r : TableRow) : Bool := w &&& r.mask == r.pattern

/-- The mnemonic the opcode table gives a word: that of the first row it is of, else ILLEGAL (the table's note on its
last row: lowest priority). -/
def tableMnemonic (w : HostWord) : String :=
  match opcodeTable.find? (rowMatches w) with
  | some r => r.mnemonic
  | none => "ILLEGAL"

/-- The host command with the word `w` and every side-port lane zero: "operand words of zeros". -/
def zeroPortCommand (w : HostWord) : HostCommand := ⟨w, drivePayload [], 0#31⟩

/-- The instruction the decoder reads from the host word `w`, side ports zero; none for a number that is no host word
of `nbits` bits. -/
def decodeTableWord (nbits w : Nat) : Option Instr :=
  if nbits ≤ 32 ∧ w < 2 ^ nbits then some (decode (zeroPortCommand (BitVec.ofNat 32 w))) else none

end Sys2Proof
end

