-- ==== Sys2Proof/Machine/Types.lean ====
section
/-! DEFINITION. The result, event and telegram types of 10_state.md section 6, and the types of the state's parts. -/

namespace Sys2Proof.Machine

/-- What is delivered for a pending expectation (10_state.md R33). -/
inductive Result where
  /-- A matching frame: its id, the raw execution-status code when the command had a payload, and the data. -/
  | ok (responseId : Byte) (status : Option Byte) (payload : List Byte)
  /-- A valid frame with another id consumed the expectation. -/
  | idMismatch (responseId : Byte)
  /-- The deadline passed. -/
  | timeout
  deriving DecidableEq, Repr

/-- The codes a SendNak carries (60_exceptions.md R221). -/
inductive NakCode where
  | frameTooLarge
  | queueFull
  deriving DecidableEq, Repr

/-- A diagnostic with its info (60_exceptions.md R220). -/
inductive Diagnostic where
  /-- The length prefix `L`. -/
  | malformedLength (prefixValue : Half)
  /-- `computed << 8 | received`. -/
  | checksumMismatch (info : Half)
  /-- The option mask. -/
  | incompleteLinkLayer (mask : Half)
  /-- The frame's id. -/
  | orphanResponse (id : Byte)
  /-- `len(p)`. -/
  | telegramTruncated (length : Nat)
  /-- The word. -/
  | illegalOp (w : HostWord)
  deriving DecidableEq, Repr

/-- `frame_type` (10_state.md R35). -/
inductive FrameType where
  | a
  | b
  deriving DecidableEq, Repr

/-- The telegram record (10_state.md R35). -/
structure Telegram where
  frameType : FrameType
  rssi : Option Byte
  timestampRaw : Option (BitVec 32)
  lengthField : Option Byte
  controlField : Option Byte
  manufacturerId : Option (Vector Byte 3)
  deviceAddress : Option (BitVec 32)
  deviceVersion : Option Byte
  deviceType : Option Byte
  rawApplicationPayload : List Byte
  optionMask : Half
  llOffset : Nat
  incompleteLl : Bool
  truncated : Bool
  deriving DecidableEq, Repr

/-- An output event (10_state.md R34). -/
inductive Event where
  /-- A SEND was accepted and registered in the slot. -/
  | sendAck (slot : Nat)
  /-- A SEND was rejected before any I/O. -/
  | sendNak (code : NakCode)
  /-- A complete frame for the link. -/
  | tx (frame : List Byte)
  /-- The result of the expectation in the slot. -/
  | result (slot : Nat) (r : Result)
  /-- A decoded telegram. -/
  | telegram (t : Telegram)
  /-- A diagnostic. -/
  | diag (d : Diagnostic)
  deriving DecidableEq, Repr

/-- One slot of the expectation arena (10_state.md R26). While `busy` is false the other fields are never read. -/
structure Slot where
  busy : Bool
  expId : Byte
  statusExp : Bool
  deadline : Time
  deriving DecidableEq, Repr

/-- The parser phase, a function of `rx_exp` (10_state.md R21). -/
inductive Phase where
  | awaitPrefix
  | body
  deriving DecidableEq, Repr

/-- A host-port operation given directly (10_state.md R32, 43_host_port.md R200). -/
inductive HostOp where
  | feedByte (b : Byte)
  | send (id : CommandId) (payload : List Byte) (timeout : Option Timeout)
  | tick
  | reset
  | illegal (w : HostWord)
  deriving DecidableEq, Repr

/-- One operation as the environment presents it: a host command to decode, or an operation given directly
(43_host_port.md R200). -/
inductive PortEntry where
  | command (c : HostCommand)
  | direct (op : HostOp)
  deriving DecidableEq, Repr

/-- The value a pure internal operation returned when `exec` ran it on its own (entry 3). -/
inductive Returned where
  | nothing
  | byte (b : Byte)
  | bytes (bs : List Byte)
  deriving DecidableEq, Repr

/-- A field of the notification payload (42_telegram.md R171). -/
inductive Field where
  | rssi
  | timestamp
  | length
  | control
  | address
  deriving DecidableEq, Repr

/-- One (flag bit, field, size) row of the decoder's field list (42_telegram.md R171). -/
structure FieldRow where
  bit : Nat
  field : Field
  size : Nat
  deriving DecidableEq, Repr

/-- The running offset and the truncation flag of one DECODE_TELEGRAM (42_telegram.md R172). -/
structure Reader where
  offset : Nat
  trunc : Bool
  deriving DecidableEq, Repr

end Sys2Proof.Machine
end

