-- ==== Sys2Proof/Machine/State.lean ====
section
/-! DEFINITION. The state of WMBUS-CORE (10_state.md R20 to R28), the reasons a step can stop, and the reset state. -/

namespace Sys2Proof.Machine

/-- The RX buffer as address and byte pairs in one canonical form: addresses strictly rising, and no entry equal to
what an unlisted address reads as. -/
abbrev Memory := List Host.Cell

/-- The state. The block's own fields are those of 10_state.md R37; `port` and `out` are its interface; `ret` is the
model's own (entries 1 to 3). -/
structure State where
  /-- `rx_buf` (R22). -/
  rxBuf : Memory
  /-- `rx_cnt` (R22). -/
  rxCnt : Nat
  /-- `rx_exp` (R23). -/
  rxExp : Option Half
  /-- `now` (R25). -/
  now : Time
  /-- The expectation arena (R26); its length is `QDEPTH` (entry 6). -/
  slots : List Slot
  /-- `q`, slot numbers, oldest first (R27). -/
  q : List Nat
  /-- The operations presented and not yet taken, next one first (00_scope.md R6, entry 1). -/
  port : List PortEntry
  /-- The events emitted so far, in emission order (10_state.md R34, 43_host_port.md R205, entry 2). -/
  out : List Event
  /-- The value returned by a pure internal operation run on its own (entry 3). -/
  ret : Returned
  deriving DecidableEq, Repr

/-- Why the model stops. The block itself has no fault state (10_state.md R36). Each fault is safe: it stands for a
state outside the invariants R24 and R27, or for an internal operation given an operand outside the domain its rule
states (entries 10 and 11). -/
inductive Fault where
  /-- FEED_BYTE, in a state with `rx_cnt` above 511: it would write an index the RX buffer does not have (20_memory.md
  R50). Safe. -/
  | rxIndex (i : Nat)
  /-- ON_FRAME or TICK, where `q` names a slot the arena does not have, or EXPIRE of one (20_memory.md R51). Safe. -/
  | slotIndex (slot : Nat)
  /-- SEND, where `q` is not full and yet no slot is free (10_state.md R27). Safe. -/
  | noFreeSlot
  /-- ON_FRAME of a frame not of 5 to 512 bytes (41_transaction.md R135). Safe. -/
  | frameLength (n : Nat)
  /-- ENCODE of a payload over 508 bytes (40_frame_codec.md R101). Safe. -/
  | payloadLength (n : Nat)
  deriving DecidableEq, Repr

/-- Why an instruction has no meaning in the model. -/
inductive Refusal where
  /-- Raised by `exec` for an instruction without a meaning yet; no instruction is left so. Safe. -/
  | notModelled (mnemonic : String)
  deriving DecidableEq, Repr

/-- A free slot as reset leaves it. `busy = 0` is the spec's (10_state.md R37); the other three values are DESIGN
CHOICES, unsafe, for fields the spec leaves unspecified and never read (entry 5). -/
def Slot.free : Slot := { busy := false, expId := 0x00#8, statusExp := false, deadline := 0#32 }

/-- The machine right after power-on or RESET (10_state.md R37, 70_reset_and_hazards.md R250), with the default number
of slots. -/
def State.reset : State :=
  { rxBuf := []
    rxCnt := 0
    rxExp := none
    now := 0#32
    slots := List.replicate Config.qdepth Slot.free
    q := []
    port := []
    out := []
    ret := .nothing }

end Sys2Proof.Machine
end

