-- ==== Sys2Proof/Machine/Operands.lean ====
section
/-! DEFINITION. Reading bytes and fields out of byte sequences (00_scope.md R9 to R11), and the operation a port entry
holds. -/

namespace Sys2Proof.Machine

/-- `s[i]`. Every rule indexes within the sequence; the value past the end is never used. -/
def byteAt (s : List Byte) (i : Nat) : Byte := s.getD i 0#8

/-- `s[i ..< j]` (00_scope.md R10): empty when `j ≤ i`. -/
def slice (s : List Byte) (i j : Nat) : List Byte := (s.drop i).take (j - i)

/-- `be16(s, i)` (00_scope.md R10). -/
def be16 (s : List Byte) (i : Nat) : Half := byteAt s i ++ byteAt s (i + 1)

/-- `le16(s, i)` (00_scope.md R10). -/
def le16 (s : List Byte) (i : Nat) : Half := byteAt s (i + 1) ++ byteAt s i

/-- `be32(s, i)` (00_scope.md R10). -/
def be32 (s : List Byte) (i : Nat) : BitVec 32 :=
  byteAt s i ++ byteAt s (i + 1) ++ byteAt s (i + 2) ++ byteAt s (i + 3)

/-- `le32(s, i)` (00_scope.md R10). -/
def le32 (s : List Byte) (i : Nat) : BitVec 32 :=
  byteAt s (i + 3) ++ byteAt s (i + 2) ++ byteAt s (i + 1) ++ byteAt s i

/-- The option mask of a notification payload in the given byte order (30_encoding.md R76, decision D43). -/
def maskOf (order : MaskOrder) (p : List Byte) : Half :=
  match order with
  | .be => be16 p 0
  | .le => le16 p 0

/-- The id byte of an outbound frame, `0 ‖ id[6:0]` (30_encoding.md R73). -/
def requestId (id : CommandId) : Byte := 0#1 ++ id

/-- The expected response id `id | 0x80` of a command (41_transaction.md R131). -/
def responseId (id : CommandId) : Byte := requestId id ||| Config.respBit

/-- The ticks a SEND waits: its timeout, or `DEFAULT_TIMEOUT` when it gives none (41_transaction.md R133). -/
def timeoutTicks (timeout : Option Timeout) : Timeout := timeout.getD Config.defaultTimeout

/-- The deadline `(now + T) mod 2^TIME_W` (41_transaction.md R133). -/
def deadlineOf (now : Time) (ticks : Timeout) : Time := now + ticks.setWidth 32

/-- `take(k)` (42_telegram.md R172): the next `k` bytes of `r`, or a failure that makes every later one fail. -/
def takeBytes (k : Nat) (r : List Byte) (rd : Reader) : Option (List Byte) × Reader :=
  if !rd.trunc && rd.offset + k ≤ r.length then
    (some (slice r rd.offset (rd.offset + k)), { rd with offset := rd.offset + k })
  else (none, { rd with trunc := true })

/-- The three character codes of a manufacturer word (30_encoding.md R79). -/
def manufacturerCodes (m : Half) : Vector Byte 3 :=
  #v[(m.extractLsb' 10 5).setWidth 8 + Config.mfrBias,
     (m.extractLsb' 5 5).setWidth 8 + Config.mfrBias,
     (m.extractLsb' 0 5).setWidth 8 + Config.mfrBias]

/-- The instruction of a host-port operation given directly (10_state.md R32). -/
def HostOp.toInstr : HostOp → Instr
  | .feedByte b => .feedByte b
  | .send id payload timeout => .send id payload timeout
  | .tick => .tick
  | .reset => .reset
  | .illegal w => .illegal w

/-- The instruction a port entry presents: the decoded host command, or the operation given (43_host_port.md R200). -/
def PortEntry.toInstr : PortEntry → Instr
  | .command c => decode c
  | .direct op => op.toInstr

end Sys2Proof.Machine
end

