-- ==== Sys2Proof/Machine/Flags.lean ====
section
/-! DEFINITION. WMBUS-CORE has no status flags (10_state.md R29): its conditions are events. Here are the tests that
raise them, and their codes (60_exceptions.md R220 to R222). -/

namespace Sys2Proof.Machine

/-- A malformed length prefix: `L ≤ 4` or `L ≥ 513` (40_frame_codec.md R103). -/
def isMalformedLength (prefixValue : Half) : Bool :=
  prefixValue.toNat < Config.minRxFrameLen || Config.maxFrameLen < prefixValue.toNat

/-- `EXPIRED`: `now` has reached or passed the deadline, `(now - deadline) mod 2^TIME_W < 2^(TIME_W-1)`
(41_transaction.md R144). -/
def isExpired (now deadline : Time) : Bool := (now - deadline).toNat < 2 ^ 31

/-- `rem`: the ticks a slot may still wait, `(deadline - now) mod 2^TIME_W` (10_state.md R28). -/
def remainingTicks (now deadline : Time) : Nat := (deadline - now).toNat

/-- A link-layer field is absent from the record (42_telegram.md R182). Manufacturer and address come from one block. -/
def isIncompleteLl (t : Telegram) : Bool :=
  t.lengthField.isNone || t.controlField.isNone || t.manufacturerId.isNone

/-- The condition code of a SendNak (60_exceptions.md R220, R221). -/
def NakCode.code : NakCode → Byte
  | .frameTooLarge => 0x01#8
  | .queueFull => 0x08#8

/-- The condition code of a diagnostic (60_exceptions.md R220). -/
def Diagnostic.code : Diagnostic → Byte
  | .malformedLength _ => 0x02#8
  | .checksumMismatch _ => 0x03#8
  | .incompleteLinkLayer _ => 0x06#8
  | .orphanResponse _ => 0x07#8
  | .telegramTruncated _ => 0x09#8
  | .illegalOp _ => 0x0A#8

/-- The info of a diagnostic as a number (60_exceptions.md R220). -/
def Diagnostic.info : Diagnostic → Nat
  | .malformedLength l => l.toNat
  | .checksumMismatch i => i.toNat
  | .incompleteLinkLayer m => m.toNat
  | .orphanResponse id => id.toNat
  | .telegramTruncated n => n
  | .illegalOp w => w.toNat

/-- The kind of a result, in the same code space (60_exceptions.md R222). -/
def Result.kind : Result → Byte
  | .ok _ _ _ => 0x00#8
  | .idMismatch _ => 0x04#8
  | .timeout => 0x05#8

end Sys2Proof.Machine
end

