-- ==== Sys2Proof/Machine/Ops.lean ====
section
/-! DEFINITION. The named operations over the state: the RX buffer, the slot arena and the queue, emitting events and
raising conditions; and the two pure functions CHECKSUM and ENCODE. Nothing traps (60_exceptions.md R223): raising a
condition is emitting a diagnostic. -/

namespace Sys2Proof.Machine

/-- The canonical form of the RX buffer. -/
abbrev Memory.wf (m : Memory) : Prop :=
  m.Pairwise (fun x y => x.1 < y.1) ∧ ∀ c ∈ m, c.2 ≠ Config.unwrittenByte ∧ c.1 < Config.rxBufCap

/-- `MemRead(a, 1)` (00_scope.md R12). -/
def Memory.read : Memory → Nat → Byte
  | [], _ => Config.unwrittenByte
  | c :: m, a => if c.1 = a then c.2 else Memory.read m a

/-- `MemWrite(a, 1, b)` (00_scope.md R12), keeping the canonical form. -/
def Memory.write : Memory → Nat → Byte → Memory
  | [], a, b => if b = Config.unwrittenByte then [] else [(a, b)]
  | c :: m, a, b =>
    if a < c.1 then (if b = Config.unwrittenByte then c :: m else (a, b) :: c :: m)
    else if a = c.1 then (if b = Config.unwrittenByte then m else (a, b) :: m)
    else c :: Memory.write m a b

/-- `rx_buf[0 ..< n]`, read byte by byte (40_frame_codec.md R102, R104). -/
def Memory.readFirst (m : Memory) (n : Nat) : List Byte := (List.range n).map (Memory.read m)

/-- `emit E` (00_scope.md R12). -/
def State.emit (s : State) (e : Event) : State := { s with out := s.out ++ [e] }

/-- Emitting several events in order. -/
def State.emitAll (s : State) (es : List Event) : State := { s with out := s.out ++ es }

/-- `raise D(info)`: emit the diagnostic and nothing else (00_scope.md R12, 60_exceptions.md R224). -/
def State.raise (s : State) (d : Diagnostic) : State := s.emit (.diag d)

/-- The parser phase (10_state.md R21). -/
def State.phase (s : State) : Phase :=
  match s.rxExp with
  | none => .awaitPrefix
  | some _ => .body

/-- The least slot number whose slot is free (41_transaction.md R132). -/
def State.leastFree (s : State) : Option Nat := s.slots.findIdx? (fun e => !e.busy)

/-- `slot[k].busy <- 0`. -/
def State.freeSlot (s : State) (k : Nat) : State :=
  { s with slots := s.slots.modify k (fun e => { e with busy := false }) }

/-- Slot `k` takes a new expectation and joins the tail of the queue (41_transaction.md R130). -/
def State.register (s : State) (k : Nat) (e : Slot) : State :=
  { s with slots := s.slots.set k e, q := s.q ++ [k] }

/-- EXPIRE(k) (41_transaction.md R144): out of the queue, the others keeping their order; free; timed out. -/
def State.expire (s : State) (k : Nat) : State :=
  ({ s with q := s.q.filter (fun j => j != k) }.freeSlot k).emit (.result k .timeout)

/-- The Parser State as a frame or a malformed prefix leaves it (40_frame_codec.md R103, R104). -/
def State.clearParser (s : State) : State := { s with rxCnt := 0, rxExp := none }

/-- CHECKSUM (40_frame_codec.md R100): the integer sum, reduced once. -/
def checksum (s : List Byte) : Byte := BitVec.ofNat 8 (s.map BitVec.toNat).sum

/-- The header and payload of an outbound frame, the `h` of 40_frame_codec.md R101. -/
def frameHead (id : CommandId) (payload : List Byte) : List Byte :=
  let l : Half := BitVec.ofNat 16 (payload.length + Config.lenOverhead)
  [l.extractLsb' 8 8, l.extractLsb' 0 8, requestId id] ++ payload

/-- ENCODE (40_frame_codec.md R101). -/
def encodeFrame (id : CommandId) (payload : List Byte) : List Byte :=
  frameHead id payload ++ [checksum (frameHead id payload)]

/-- The checksum ON_FRAME recomputes: over every byte but the last (41_transaction.md R136). -/
def computedChecksum (f : List Byte) : Byte := checksum (slice f 0 (f.length - 1))

/-- The checksum byte of a frame, its last (30_encoding.md R70). -/
def receivedChecksum (f : List Byte) : Byte := byteAt f (f.length - 1)

/-- The payload of a frame, `f[3 ..< L-1]` (41_transaction.md R137). -/
def framePayload (f : List Byte) : List Byte := slice f 3 (f.length - 1)

/-- The result of a frame with id `rid` and payload `p` for the expectation `e` (41_transaction.md R138, R139, R141). -/
def resultFor (e : Slot) (rid : Byte) (p : List Byte) : Result :=
  if rid = e.expId then
    (if e.statusExp then .ok rid (some (byteAt p 0)) (slice p 1 p.length) else .ok rid none p)
  else .idMismatch rid

end Sys2Proof.Machine
end

