-- ==== Sys2Proof/Machine/Telegram.lean ====
section
/-! DEFINITION. The Telegram Decoder (42_telegram.md). -/

namespace Sys2Proof.Machine

/-- The fields before the `ll_offset` marker (42_telegram.md R171). -/
def fieldsBeforeLl : List FieldRow := [⟨15, .rssi, 1⟩, ⟨3, .timestamp, 4⟩]

/-- The fields after the `ll_offset` marker (42_telegram.md R171). -/
def fieldsAfterLl : List FieldRow := [⟨2, .length, 1⟩, ⟨1, .control, 1⟩, ⟨0, .address, 8⟩]

/-- The telegram before any field is read (42_telegram.md R173, R175). -/
def emptyTelegram (mask : Half) : Telegram :=
  { frameType := if mask.getLsbD 4 then .b else .a
    rssi := none
    timestampRaw := none
    lengthField := none
    controlField := none
    manufacturerId := none
    deviceAddress := none
    deviceVersion := none
    deviceType := none
    rawApplicationPayload := []
    optionMask := mask
    llOffset := 0
    incompleteLl := false
    truncated := false }

/-- A field of the record takes its bytes `v` (42_telegram.md R173, R174, R176, R178, R179). -/
def storeField (t : Telegram) (v : List Byte) : Field → Telegram
  | .rssi => { t with rssi := some (byteAt v 0) }
  | .timestamp => { t with timestampRaw := some (be32 v 0) }
  | .length => { t with lengthField := some (byteAt v 0) }
  | .control => { t with controlField := some (byteAt v 0) }
  | .address =>
    { t with
      manufacturerId := some (manufacturerCodes (le16 v 0))
      deviceAddress := some (le32 v 2)
      deviceVersion := some (byteAt v 6)
      deviceType := some (byteAt v 7) }

/-- One row of the field list: if its flag bit is set, its bytes are taken, or the data runs out (42_telegram.md R173,
R181). -/
def readField (mask : Half) (r : List Byte) (acc : Reader × Telegram) (row : FieldRow) : Reader × Telegram :=
  if mask.getLsbD row.bit then
    match takeBytes row.size r acc.1 with
    | (some v, rd) => (rd, storeField acc.2 v row.field)
    | (none, rd) => (rd, acc.2)
  else acc

/-- The reader and the fields after the whole list, with the `ll_offset` marker where it falls (42_telegram.md R171,
R177). -/
def readFields (mask : Half) (r : List Byte) : Reader × Telegram :=
  let before := fieldsBeforeLl.foldl (readField mask r) (⟨0, false⟩, emptyTelegram mask)
  fieldsAfterLl.foldl (readField mask r) (before.1, { before.2 with llOffset := before.1.offset })

/-- The finished record: application payload, truncation and completeness (42_telegram.md R180 to R182). -/
def finishTelegram (r : List Byte) (acc : Reader × Telegram) : Telegram :=
  { acc.2 with
    rawApplicationPayload := if acc.1.trunc then [] else slice r acc.1.offset r.length
    truncated := acc.1.trunc
    incompleteLl := isIncompleteLl acc.2 }

/-- The telegram of a notification with option mask `mask` and the bytes `r` after it: the source's `Decode`. -/
def telegramOf (mask : Half) (r : List Byte) : Telegram := finishTelegram r (readFields mask r)

/-- The events of DECODE_TELEGRAM, in order (42_telegram.md R173, R184, 60_exceptions.md R226). -/
def telegramEvents (order : MaskOrder) (p : List Byte) : List Event :=
  if p.length < 2 then [.diag (.telegramTruncated p.length)]
  else
    let mask := maskOf order p
    let t := telegramOf mask (slice p 2 p.length)
    [.telegram t] ++ (if t.incompleteLl then [.diag (.incompleteLinkLayer mask)] else []) ++
      (if t.truncated then [.diag (.telegramTruncated p.length)] else [])

/-- DECODE_TELEGRAM as an operation: only its events leave it (42_telegram.md R173). -/
def decodeTelegram (p : List Byte) (s : State) : State := s.emitAll (telegramEvents Config.maskOrder p)

/-- DECODE_TELEGRAM (42_telegram.md R173), run on its own. -/
def execDecodeTelegram (payload : List Byte) (s : State) : Host.Outcome State Fault Refusal :=
  .next (decodeTelegram payload s)

end Sys2Proof.Machine
end

