-- ==== Sys2Proof/Machine/Transaction.lean ====
section
/-! DEFINITION. The Transaction Layer (41_transaction.md): SEND, ON_FRAME, TICK, EXPIRE. -/

namespace Sys2Proof.Machine

/-- The expectation an accepted SEND registers (41_transaction.md R130, R131, R133). -/
def expectation (id : CommandId) (payload : List Byte) (timeout : Option Timeout) (now : Time) : Slot :=
  { busy := true
    expId := responseId id
    statusExp := 0 < payload.length
    deadline := deadlineOf now (timeoutTicks timeout) }

/-- SEND (41_transaction.md R130, R134): FrameTooLarge is tested before QueueFull. -/
def execSend (id : CommandId) (payload : List Byte) (timeout : Option Timeout) (s : State) :
    Host.Outcome State Fault Refusal :=
  if Config.maxPayload < payload.length then .next (s.emit (.sendNak .frameTooLarge))
  else if s.q.length = s.slots.length then .next (s.emit (.sendNak .queueFull))
  else
    match s.leastFree with
    | none => .fault .noFreeSlot
    | some k =>
      .next (((s.register k (expectation id payload timeout s.now)).emit (.sendAck k)).emit
        (.tx (encodeFrame id payload)))

/-- A valid frame on an empty queue: a notification is decoded, anything else is an orphan (41_transaction.md R140). -/
def dispatchUnsolicited (f : List Byte) (s : State) : State :=
  if byteAt f 2 = Config.notifyId then decodeTelegram (framePayload f) s
  else s.raise (.orphanResponse (byteAt f 2))

/-- A valid frame consumes the oldest expectation `e`, in slot `k`, whatever its id (41_transaction.md R135, R138,
R139). -/
def resolveHead (f : List Byte) (k : Nat) (e : Slot) (rest : List Nat) (s : State) : State :=
  ({ s with q := rest }.freeSlot k).emit (.result k (resultFor e (byteAt f 2) (framePayload f)))

/-- A frame whose checksum is good (41_transaction.md R135): the queue is tested first. -/
def acceptFrame (f : List Byte) (s : State) : Host.Outcome State Fault Refusal :=
  match s.q with
  | [] => .next (dispatchUnsolicited f s)
  | k :: rest =>
    match s.slots[k]? with
    | none => .fault (.slotIndex k)
    | some e => .next (resolveHead f k e rest s)

/-- ON_FRAME as an operation (41_transaction.md R135, R136): a frame of 5 to 512 bytes; a bad checksum discards it. -/
def onFrame (f : List Byte) (s : State) : Host.Outcome State Fault Refusal :=
  if Config.minRxFrameLen ≤ f.length ∧ f.length ≤ Config.maxFrameLen then
    (if computedChecksum f = receivedChecksum f then acceptFrame f s
     else .next (s.raise (.checksumMismatch (computedChecksum f ++ receivedChecksum f))))
  else .fault (.frameLength f.length)

/-- ON_FRAME (41_transaction.md R135), run on its own. -/
def execOnFrame (frame : List Byte) (s : State) : Host.Outcome State Fault Refusal := onFrame frame s

/-- EXPIRE (41_transaction.md R144), run on its own for a slot of the arena: its own pseudocode, which does not test
EXPIRED again (entry 15). -/
def execExpire (slot : Nat) (s : State) : Host.Outcome State Fault Refusal :=
  if slot < s.slots.length then .next (s.expire slot) else .fault (.slotIndex slot)

/-- TICK's loop over the queue as it stood, oldest first (41_transaction.md R143). -/
def expireScan : List Nat → State → Host.Outcome State Fault Refusal
  | [], s => .next s
  | k :: ks, s =>
    match s.slots[k]? with
    | none => .fault (.slotIndex k)
    | some e => if isExpired s.now e.deadline then expireScan ks (s.expire k) else expireScan ks s

/-- TICK (41_transaction.md R143). -/
def execTick (s : State) : Host.Outcome State Fault Refusal := expireScan s.q { s with now := s.now + 1#32 }

end Sys2Proof.Machine
end

