-- ==== Sys2Proof/Machine/FrameCodec.lean ====
section
/-! DEFINITION. The Frame Codec (40_frame_codec.md): CHECKSUM, ENCODE, FEED_BYTE. -/

namespace Sys2Proof.Machine

/-- CHECKSUM (40_frame_codec.md R100), run on its own: no state is written, and the value stands in `ret` (entry 3). -/
def execChecksum (bytes : List Byte) (s : State) : Host.Outcome State Fault Refusal :=
  .next { s with ret := .byte (checksum bytes) }

/-- ENCODE (40_frame_codec.md R101), run on its own: no state is written, and the frame stands in `ret` (entry 3). A
payload over 508 bytes is outside its domain (entry 10). -/
def execEncode (id : CommandId) (payload : List Byte) (s : State) : Host.Outcome State Fault Refusal :=
  if payload.length ≤ Config.maxPayload then .next { s with ret := .bytes (encodeFrame id payload) }
  else .fault (.payloadLength payload.length)

/-- The byte enters the buffer (40_frame_codec.md R102, its first two lines). -/
def bufferByte (b : Byte) (s : State) : State :=
  { s with rxBuf := s.rxBuf.write s.rxCnt b, rxCnt := s.rxCnt + 1 }

/-- The prefix check once two bytes are held (40_frame_codec.md R102, R103). -/
def checkPrefix (s : State) : State :=
  let l : Half := s.rxBuf.read 0 ++ s.rxBuf.read 1
  if isMalformedLength l then { s with rxCnt := 0 }.raise (.malformedLength l)
  else { s with rxExp := some l }

/-- A complete frame: the parser is empty again, and ON_FRAME gets the whole frame (40_frame_codec.md R104). -/
def completeFrame (l : Nat) (s : State) : Host.Outcome State Fault Refusal :=
  onFrame (s.rxBuf.readFirst l) s.clearParser

/-- FEED_BYTE (40_frame_codec.md R102, R104). The count tested is the one after the byte is buffered. -/
def execFeedByte (b : Byte) (s : State) : Host.Outcome State Fault Refusal :=
  if s.rxCnt < Config.rxBufCap then
    match s.rxExp with
    | none => if s.rxCnt + 1 = 2 then .next (checkPrefix (bufferByte b s)) else .next (bufferByte b s)
    | some l => if s.rxCnt + 1 = l.toNat then completeFrame l.toNat (bufferByte b s) else .next (bufferByte b s)
  else .fault (.rxIndex s.rxCnt)

end Sys2Proof.Machine
end

