-- ==== Sys2Proof/Machine/HostPort.lean ====
section
/-! DEFINITION. The host port's own operations (43_host_port.md): RESET and ILLEGAL. -/

namespace Sys2Proof.Machine

/-- RESET (43_host_port.md R201): every field of the block at its reset value, the number of slots kept, no event. The
operations still to come and the events already delivered are the environment's, and stay. -/
def execReset (s : State) : Host.Outcome State Fault Refusal :=
  .next
    { s with
      rxBuf := []
      rxCnt := 0
      rxExp := none
      now := 0#32
      slots := List.replicate s.slots.length Slot.free
      q := [] }

/-- ILLEGAL (43_host_port.md R202): a diagnostic and no other effect. -/
def execIllegal (w : HostWord) (s : State) : Host.Outcome State Fault Refusal := .next (s.raise (.illegalOp w))

end Sys2Proof.Machine
end

