-- ==== Sys2Proof/Machine/Dispatch.lean ====
section
/-! DEFINITION. The dispatch of instructions to their meanings (43_host_port.md R200). -/

namespace Sys2Proof.Machine

def exec (i : Instr) (s : State) : Host.Outcome State Fault Refusal :=
  match i with
  | .feedByte b => Sys2Proof.Machine.execFeedByte b s
  | .send id payload timeout => Sys2Proof.Machine.execSend id payload timeout s
  | .tick => Sys2Proof.Machine.execTick s
  | .reset => Sys2Proof.Machine.execReset s
  | .illegal w => Sys2Proof.Machine.execIllegal w s
  | .checksum bytes => Sys2Proof.Machine.execChecksum bytes s
  | .encode id payload => Sys2Proof.Machine.execEncode id payload s
  | .onFrame frame => Sys2Proof.Machine.execOnFrame frame s
  | .expire slot => Sys2Proof.Machine.execExpire slot s
  | .decodeTelegram payload => Sys2Proof.Machine.execDecodeTelegram payload s

end Sys2Proof.Machine
end

