-- ==== Sys2Proof/Machine/Step.lean ====
section
/-! DEFINITION. One step of the block: it takes the next operation presented and runs it (43_host_port.md R200). -/

namespace Sys2Proof.Machine

/-- One step. With nothing presented the block waits, unchanged (entry 20). -/
def step (s : State) : Host.Outcome State Fault Refusal :=
  match s.port with
  | [] => .next s
  | x :: rest => exec x.toInstr { s with port := rest }

/-- `s` with the host word `w` presented as the next operation, its side ports zero (entries 1 and 22). -/
def State.withFetchWord (s : State) (_nbits w : Nat) : State :=
  { s with port := .command (zeroPortCommand (BitVec.ofNat 32 w)) :: s.port }

end Sys2Proof.Machine
end

