-- ==== Sys2Proof/Machine/HostView.lean ====
section
/-! DEFINITION. The readings the spec defines for the host over the block's numeric outputs: the status text,
`transmission_ok`, the value of an RSSI, the seconds of a timestamp, the letters of a manufacturer code and the
rendering of a device address. The block computes none of them (30_encoding.md R75, R80, 92_eei_decisions.md D19). -/

namespace Sys2Proof.Machine

/-- The execution-status texts (30_encoding.md R75). -/
inductive StatusText where
  | success
  | genericError
  | parametersNotAccepted
  | operationTimeout
  | noMemory
  | unsupported
  | busy
  | dutyCycle
  | unknown
  deriving DecidableEq, Repr

/-- The source's `transmission_ok` (41_transaction.md R142). -/
inductive TransmissionOk where
  /-- `true`. -/
  | yes
  /-- The status text of a response that carried a status byte. -/
  | status (t : StatusText)
  /-- Failure `IdMismatch`, which is not `true`. -/
  | failedIdMismatch
  /-- `false`. -/
  | no
  deriving DecidableEq, Repr

/-- `status_text(c)` (30_encoding.md R75): codes 8 to 255 are unmapped. -/
def statusText (c : Byte) : StatusText :=
  match c.toNat with
  | 0 => .success
  | 1 => .genericError
  | 2 => .parametersNotAccepted
  | 3 => .operationTimeout
  | 4 => .noMemory
  | 5 => .unsupported
  | 6 => .busy
  | 7 => .dutyCycle
  | _ => .unknown

/-- `transmission_ok` of a result (41_transaction.md R142). -/
def transmissionOk : Result → TransmissionOk
  | .ok _ none _ => .yes
  | .ok _ (some c) _ => .status (statusText c)
  | .idMismatch _ => .failedIdMismatch
  | .timeout => .no

/-- `sext_8` (00_scope.md R11, 30_encoding.md R82). PRESUMED by the spec itself: two's complement is general knowledge,
not the source's (entry 16). -/
def rssiValue (b : Byte) : Int := b.toInt

/-- Seconds of a raw timestamp, exactly (30_encoding.md R81). -/
def timestampSeconds (raw : BitVec 32) : ℚ := (raw.toNat : ℚ) / (Config.tsDiv : ℚ)

/-- The characters of a manufacturer code (30_encoding.md R79). PRESUMED by the spec itself: ASCII is general
knowledge, not the source's (entry 16). -/
def manufacturerLetters (m : Vector Byte 3) : List Char := m.toList.map (fun b => Char.ofNat b.toNat)

/-- A lowercase hex digit. -/
def hexDigit (n : Nat) : Char := if n < 10 then Char.ofNat (48 + n) else Char.ofNat (87 + n)

/-- The reference rendering of a device address (92_eei_decisions.md D41, entry 17): 8 lowercase hex digits, most
significant first. -/
def renderAddress (a : BitVec 32) : List Char :=
  [28, 24, 20, 16, 12, 8, 4, 0].map (fun lo => hexDigit (a.extractLsb' lo 4).toNat)

/-- The wall time of a number of ticks, if the host keeps its duty (43_host_port.md R204). -/
def wallMillis (ticks : Nat) : Nat := ticks * Config.tickMs

end Sys2Proof.Machine
end

