-- ==== Sys2Proof/Machine/Runs.lean ====
section
/-! DEFINITION. Sequences of operations (43_host_port.md R205) and the pseudo-operations FEED, TICKS and RXFRAME
(30_encoding.md R89). -/

namespace Sys2Proof.Machine

/-- Running operations one after another, stopping at the first that does not answer a next state. -/
def runAll : List Instr → State → Host.Outcome State Fault Refusal
  | [], s => .next s
  | i :: is, s =>
    match exec i s with
    | .next t => runAll is t
    | .fault r => .fault r
    | .refused r => .refused r

/-- `FEED b0 ... bk`: the source's `Feed` of a chunk (30_encoding.md R89, 40_frame_codec.md R105). -/
def feed (bs : List Byte) : List Instr := bs.map .feedByte

/-- Feeding several chunks one after another (40_frame_codec.md R105). -/
def feedChunks : List (List Byte) → State → Host.Outcome State Fault Refusal
  | [], s => .next s
  | c :: cs, s =>
    match runAll (feed c) s with
    | .next t => feedChunks cs t
    | .fault r => .fault r
    | .refused r => .refused r

/-- `TICKS n` (30_encoding.md R89). -/
def ticks (n : Nat) : List Instr := List.replicate n .tick

/-- The bytes of a well-formed frame from the module, its id a full byte (30_encoding.md R89). -/
def rxFrameBytes (id : Byte) (payload : List Byte) : List Byte :=
  let l : Half := BitVec.ofNat 16 (payload.length + Config.lenOverhead)
  let h : List Byte := [l.extractLsb' 8 8, l.extractLsb' 0 8, id] ++ payload
  h ++ [checksum h]

/-- `RXFRAME id payload` (30_encoding.md R89). -/
def rxFrame (id : Byte) (payload : List Byte) : List Instr := feed (rxFrameBytes id payload)

end Sys2Proof.Machine
end

