-- ==== Sys2Proof/Safety.lean ====
section
/-! DEFINITION. The invariants the spec states of the state between operations, and the terms the statements use. -/

namespace Sys2Proof.Machine

/-- Slot `k` exists and is busy. -/
def State.busyAt (s : State) (k : Nat) : Bool :=
  match s.slots[k]? with
  | some e => e.busy
  | none => false

/-- The Parser State (10_state.md R23, R24): PREFIX with at most one byte, or BODY with a legal prefix, which is the
big-endian value of the frame's first two bytes, and a count below it. -/
abbrev State.ParserInv (s : State) : Prop :=
  match s.rxExp with
  | none => s.rxCnt ≤ 1
  | some l =>
    5 ≤ l.toNat ∧ l.toNat ≤ 512 ∧ 2 ≤ s.rxCnt ∧ s.rxCnt < l.toNat ∧ s.rxBuf.read 0 ++ s.rxBuf.read 1 = l

/-- The queue (10_state.md R27): no duplicates, and a slot is in it exactly when it is busy. -/
abbrev State.QueueInv (s : State) : Prop :=
  s.q.Nodup ∧ (∀ k ∈ s.q, s.busyAt k = true) ∧ ∀ k < s.slots.length, s.busyAt k = true → k ∈ s.q

/-- The deadlines (10_state.md R28): a busy slot may wait fewer than `2^(TIME_W-1)` ticks. -/
abbrev State.TimerInv (s : State) : Prop :=
  ∀ e ∈ s.slots, e.busy = true → remainingTicks s.now e.deadline < 2 ^ 31

/-- The expected ids (41_transaction.md R131): `0x80` to `0xFF`. -/
abbrev State.ExpectedIdInv (s : State) : Prop :=
  ∀ e ∈ s.slots, e.busy = true → 0x80 ≤ e.expId.toNat

/-- The invariants between operations. -/
structure State.Inv (s : State) : Prop where
  parser : s.ParserInv
  buffer : s.rxBuf.wf
  arena : 1 ≤ s.slots.length
  queue : s.QueueInv
  timer : s.TimerInv
  expectedId : s.ExpectedIdInv

/-- What the spec fixes of the reset state (10_state.md R37, 70_reset_and_hazards.md R250). -/
structure State.IsResetState (s : State) : Prop where
  rxCnt : s.rxCnt = 0
  rxExp : s.rxExp = none
  phase : s.phase = .awaitPrefix
  now : s.now = 0#32
  free : ∀ k, s.busyAt k = false
  q : s.q = []

/-- The events a step, or a run, from `s` to `t` emitted. -/
def newEvents (s t : State) : List Event := t.out.drop s.out.length

/-- The event reports the acceptance of a SEND into slot `k`. -/
def Event.isAckOf (k : Nat) : Event → Bool
  | .sendAck j => j == k
  | _ => false

/-- The event delivers a result for slot `k`. -/
def Event.isResultOf (k : Nat) : Event → Bool
  | .result j _ => j == k
  | _ => false

/-- The event is a telegram. -/
def Event.isTelegram : Event → Bool
  | .telegram _ => true
  | _ => false

/-- 1 when slot `k` is pending, else 0. -/
def State.pending (s : State) (k : Nat) : Nat := if k ∈ s.q then 1 else 0

/-- The same block for every observer (10_state.md R38): all state is equal but the buffer at and above `rx_cnt` and
the fields of free slots. -/
structure State.Agrees (s t : State) : Prop where
  rxCnt : s.rxCnt = t.rxCnt
  rxExp : s.rxExp = t.rxExp
  now : s.now = t.now
  q : s.q = t.q
  port : s.port = t.port
  out : s.out = t.out
  ret : s.ret = t.ret
  buffer : ∀ a < s.rxCnt, s.rxBuf.read a = t.rxBuf.read a
  arena : s.slots.length = t.slots.length
  busy : ∀ k, s.busyAt k = t.busyAt k
  slots : ∀ k, s.busyAt k = true → s.slots[k]? = t.slots[k]?

/-- Slot `k` holds an expectation whose deadline `now` has reached or passed (41_transaction.md R144). -/
def State.expiredAt (s : State) (now : Time) (k : Nat) : Bool :=
  match s.slots[k]? with
  | some e => isExpired now e.deadline
  | none => false

/-- The events DECODE_TELEGRAM of `p` may emit (60_exceptions.md R226): TelegramTruncated alone when `p` is too short
for an option mask, else a telegram and then the diagnostics that apply to it. -/
def IsDecodeEvents (p : List Byte) (es : List Event) : Prop :=
  (p.length < 2 ∧ es = [.diag (.telegramTruncated p.length)]) ∨
    (2 ≤ p.length ∧ ∃ t, es =
      [.telegram t] ++ (if t.incompleteLl then [.diag (.incompleteLinkLayer t.optionMask)] else []) ++
        (if t.truncated then [.diag (.telegramTruncated p.length)] else []))

/-- The events ON_FRAME of `f` may emit: exactly one of four kinds (60_exceptions.md R226). -/
def IsFrameEvents (f : List Byte) (es : List Event) : Prop :=
  (∃ i, es = [.diag (.checksumMismatch i)]) ∨
    (∃ k r, r ≠ .timeout ∧ es = [.result k r]) ∨
    IsDecodeEvents (framePayload f) es ∨ ∃ id, es = [.diag (.orphanResponse id)]

end Sys2Proof.Machine
end

