-- ==== Sys2Proof/WellFormed.lean ====
section
/-! DEFINITION. Which instructions are well formed: the operand domains the rules state beyond what the types say. -/

namespace Sys2Proof

/-- Operand domains. `illegal w` holds a word that spells no operation (43_host_port.md R202); ENCODE's payload is at
most 508 bytes (40_frame_codec.md R101); ON_FRAME's frame is of 5 to 512 bytes (41_transaction.md R135);
DECODE_TELEGRAM's payload is of 1 to 508 bytes (42_telegram.md R170). A SEND of any payload length is an operation:
SEND itself rejects a long one (41_transaction.md R134, U26). A slot number is checked against the arena, in State. -/
def Instr.wellFormed : Instr → Bool
  | .feedByte _ => true
  | .send _ _ _ => true
  | .tick => true
  | .reset => true
  | .illegal w => !HostWord.isLegal w
  | .checksum _ => true
  | .encode _ payload => payload.length ≤ Config.maxPayload
  | .onFrame frame => Config.minRxFrameLen ≤ frame.length && frame.length ≤ Config.maxFrameLen
  | .expire _ => true
  | .decodeTelegram payload => 1 ≤ payload.length && payload.length ≤ Config.maxPayload

end Sys2Proof
end

