-- ==== Sys2Proof/Certificates/Slice0/Obligations.lean ====
section
/-! DEFINITION. The statements about the model, for the provers. Each docstring names the rule of spec/ it formalises; a
rule the spec itself marks as derived is said to be so. Where a clause is the model's choice, its docstring names the log
entry. Events are read off the list `out`, which is log entry 2. -/

open Sys2Proof Sys2Proof.Machine

/-! Reset and the host port -/

/-- R250: power-on and the RESET operation both give the reset state; RESET emits nothing. -/
def Obligations.ResetGivesTheResetState : Prop :=
  State.reset.IsResetState ∧ State.reset.out = [] ∧
  ∀ s : State, ∃ t, exec .reset s = .next t ∧ t.IsResetState ∧ t.out = s.out

/-- R56 (marked derived), its fourth point: two RESETs give the state one gives, and RESET from the reset state
changes nothing. That whole states are equal rests on the model's choices of log entries 4 and 5. -/
def Obligations.ResetIsIdempotent : Prop :=
  (∀ s : State, ∃ t, exec .reset s = .next t ∧ exec .reset t = .next t) ∧
  exec .reset State.reset = .next State.reset

/-- The reset state meets the invariants R24, R27, R28. -/
def Obligations.ResetStateMeetsTheInvariants : Prop := State.reset.Inv

/-- R200: one step takes the next operation presented, decoded from its host command or given directly, and runs it.
That the operations presented stand in a list is log entry 1. -/
def Obligations.StepRunsThePresentedOperation : Prop :=
  (∀ (s : State) (c : HostCommand) (rest : List PortEntry), s.port = .command c :: rest →
    step s = exec (decode c) { s with port := rest }) ∧
  (∀ (s : State) (op : HostOp) (rest : List PortEntry), s.port = .direct op :: rest →
    step s = exec op.toInstr { s with port := rest })

/-- With nothing presented a step changes nothing: the model's choice, log entry 20. -/
def Obligations.NothingPresentedChangesNothing : Prop :=
  ∀ s : State, s.port = [] → step s = .next s

/-- The host words of 95_test_vectors.md 2.9 decode to the operations written there. -/
def Obligations.WrittenHostWordsDecode : Prop :=
  decode ⟨0x100000FF#32, drivePayload [], 0#31⟩ = .feedByte 0xFF#8 ∧
  decode ⟨0x20000181#32, drivePayload [0x05#8], 50#31⟩ = .send 0x01#7 [0x05#8] (some 50#31) ∧
  decode ⟨0x20000002#32, drivePayload [], 0#31⟩ = .send 0x02#7 [] none ∧
  decode ⟨0x30000000#32, drivePayload [], 0#31⟩ = .tick ∧
  decode ⟨0xF0000000#32, drivePayload [], 0#31⟩ = .reset ∧
  decode ⟨0x00000000#32, drivePayload [], 0#31⟩ = .illegal 0x00000000#32 ∧
  decode ⟨0x10000100#32, drivePayload [], 0#31⟩ = .illegal 0x10000100#32 ∧
  decode ⟨0x20020000#32, drivePayload [], 0#31⟩ = .illegal 0x20020000#32 ∧
  decode ⟨0x30000001#32, drivePayload [], 0#31⟩ = .illegal 0x30000001#32

/-- Decoding the host command of a well-formed host-port operation gives the operation back, with every operand; the
internal operations have no host command (R86), nor has a SEND longer than the field `n` expresses (U26). -/
def Obligations.DecodeOfEncodeIsTheInstruction : Prop :=
  (∀ i : Instr, i.wellFormed = true → i.isHostOp = true →
    (∀ id payload timeout, i = .send id payload timeout → payload.length ≤ 511) →
    ∃ c, encode i = some c ∧ decode c = i) ∧
  (∀ i : Instr, i.isHostOp = false → encode i = none) ∧
  ∀ id payload timeout, 511 < payload.length → encode (.send id payload timeout) = none

/-- Encoding what a host command decodes to gives its word back, and a command that decodes the same. -/
def Obligations.EncodeOfDecodeKeepsTheWord : Prop :=
  ∀ c : HostCommand, ∃ c', encode (decode c) = some c' ∧ c'.word = c.word ∧ decode c' = decode c

/-- The decoder reads every word as spec/opcode_table.json does: no word is of two rows, and the decoded operation is
that of the row the word is of, or ILLEGAL. -/
def Obligations.DecoderAgreesWithTheOpcodeTable : Prop :=
  ∀ c : HostCommand,
    (opcodeTable.filter (rowMatches c.word)).length ≤ 1 ∧
    (decode c).mnemonic = tableMnemonic c.word ∧
    (decode c).wellFormed = true

/-- R86: a word is illegal, and decodes to ILLEGAL of itself, exactly when its `OP` is reserved or a bit that must be
zero is set; ILLEGAL emits a diagnostic and changes nothing else; no host word is an internal operation. -/
def Obligations.ReservedHostWordsAreIllegal : Prop :=
  (∀ c : HostCommand,
    (∃ w, decode c = .illegal w) ↔
      (c.word.toNat / 2 ^ 28 = 0 ∨ (4 ≤ c.word.toNat / 2 ^ 28 ∧ c.word.toNat / 2 ^ 28 ≤ 14)) ∨
      (c.word.toNat / 2 ^ 28 = 1 ∧ c.word.toNat / 2 ^ 8 % 2 ^ 20 ≠ 0) ∨
      (c.word.toNat / 2 ^ 28 = 2 ∧ c.word.toNat / 2 ^ 17 % 2 ^ 11 ≠ 0) ∨
      (c.word.toNat / 2 ^ 28 = 3 ∧ c.word.toNat % 2 ^ 28 ≠ 0) ∨
      (c.word.toNat / 2 ^ 28 = 15 ∧ c.word.toNat % 2 ^ 28 ≠ 0)) ∧
  (∀ (c : HostCommand) (w : HostWord), decode c = .illegal w → w = c.word) ∧
  (∀ (w : HostWord) (s : State),
    exec (.illegal w) s = .next { s with out := s.out ++ [.diag (.illegalOp w)] }) ∧
  ∀ c : HostCommand, (decode c).isHostOp = true

/-! The Frame Codec -/

/-- R102: a byte that neither completes a prefix nor a frame is stored at index `rx_cnt`, and `rx_cnt` grows by one;
every other byte of the buffer and every other field stays. -/
def Obligations.FeedByteStoresTheByte : Prop :=
  ∀ (b : Byte) (s : State), s.Inv →
    ((s.rxExp = none ∧ s.rxCnt = 0) ∨ ∃ l, s.rxExp = some l ∧ s.rxCnt + 1 < l.toNat) →
    ∃ m, exec (.feedByte b) s = .next { s with rxBuf := m, rxCnt := s.rxCnt + 1 } ∧
      m.read s.rxCnt = b ∧ ∀ a, a ≠ s.rxCnt → m.read a = s.rxBuf.read a

/-- R102: a second prefix byte that gives a length of 5 to 512 sets `rx_exp` to it, big-endian. -/
def Obligations.LegalPrefixOpensABody : Prop :=
  ∀ (b : Byte) (s : State), s.Inv → s.rxExp = none → s.rxCnt = 1 →
    5 ≤ (s.rxBuf.read 0).toNat * 256 + b.toNat → (s.rxBuf.read 0).toNat * 256 + b.toNat ≤ 512 →
    ∃ m l, exec (.feedByte b) s = .next { s with rxBuf := m, rxCnt := 2, rxExp := some l } ∧
      l.toNat = (s.rxBuf.read 0).toNat * 256 + b.toNat ∧
      m.read 1 = b ∧ ∀ a, a ≠ 1 → m.read a = s.rxBuf.read a

/-- R103: a second prefix byte that gives `L ≤ 4` or `L ≥ 513` drops the two bytes, leaves `rx_exp` none and emits
MalformedLength of `L`, and no frame; the next byte is the first of a new prefix. -/
def Obligations.MalformedPrefixIsDropped : Prop :=
  ∀ (b : Byte) (s : State), s.Inv → s.rxExp = none → s.rxCnt = 1 →
    (s.rxBuf.read 0).toNat * 256 + b.toNat ≤ 4 ∨ 513 ≤ (s.rxBuf.read 0).toNat * 256 + b.toNat →
    ∃ m l, l.toNat = (s.rxBuf.read 0).toNat * 256 + b.toNat ∧
      exec (.feedByte b) s =
        .next { s with rxBuf := m, rxCnt := 0, out := s.out ++ [.diag (.malformedLength l)] } ∧
      (∀ a, a ≠ 1 → m.read a = s.rxBuf.read a) ∧
      ∀ b' : Byte, ∃ m', m'.read 0 = b' ∧
        exec (.feedByte b') { s with rxBuf := m, rxCnt := 0, out := s.out ++ [.diag (.malformedLength l)] } =
          .next { s with rxBuf := m', rxCnt := 1, out := s.out ++ [.diag (.malformedLength l)] }

/-- R104 (marked derived): the byte that completes a frame hands ON_FRAME the whole frame, its length bytes included,
with the Parser State already empty, and emits nothing of its own. -/
def Obligations.CompletedFrameGoesToOnFrame : Prop :=
  ∀ (b : Byte) (s : State) (l : Half), s.Inv → s.rxExp = some l → s.rxCnt + 1 = l.toNat →
    ∃ m t, exec (.feedByte b) s = .next t ∧
      exec (.onFrame (s.rxBuf.readFirst s.rxCnt ++ [b])) { s with rxBuf := m, rxCnt := 0, rxExp := none } = .next t ∧
      (s.rxBuf.readFirst s.rxCnt ++ [b]).length = l.toNat ∧
      m.read s.rxCnt = b ∧ (∀ a, a ≠ s.rxCnt → m.read a = s.rxBuf.read a) ∧
      t.rxBuf = m ∧ t.rxCnt = 0 ∧ t.rxExp = none

/-- R105 (marked derived): the events of a stream fed in chunks are those of the stream fed one byte at a time,
however it is split. -/
def Obligations.ChunkBoundariesDoNotMatter : Prop :=
  ∀ (chunks : List (List Byte)) (s : State), s.Inv →
    ∃ t, feedChunks chunks s = .next t ∧ runAll (feed chunks.flatten) s = .next t

/-- R107 (marked derived): feeding an encoded frame of a 1 to 508 byte payload to an empty parser hands ON_FRAME
exactly that frame, which passes the checksum test and gives back id and payload; the 4-byte frame of an empty payload
gives MalformedLength(4) and no frame. -/
def Obligations.EncodedFrameParsesBack : Prop :=
  (∀ (id : CommandId) (payload : List Byte) (s : State), s.Inv → s.rxExp = none → s.rxCnt = 0 →
    1 ≤ payload.length → payload.length ≤ 508 →
    ∃ m t, runAll (feed (encodeFrame id payload)) s = .next t ∧
      exec (.onFrame (encodeFrame id payload)) { s with rxBuf := m } = .next t ∧
      (byteAt (encodeFrame id payload) 2).toNat = id.toNat ∧
      framePayload (encodeFrame id payload) = payload ∧
      computedChecksum (encodeFrame id payload) = receivedChecksum (encodeFrame id payload)) ∧
  ∀ (id : CommandId) (s : State), s.Inv → s.rxExp = none → s.rxCnt = 0 →
    ∃ t rest, runAll (feed (encodeFrame id [])) s = .next t ∧
      t.out = s.out ++ .diag (.malformedLength 4#16) :: rest ∧
      (∀ e ∈ rest, ∃ l, e = .diag (.malformedLength l)) ∧
      t.q = s.q ∧ t.slots = s.slots ∧ t.now = s.now

/-- R108 (marked derived): flipping any one bit of a frame the checksum accepts, the checksum byte included, makes
ON_FRAME discard it with ChecksumMismatch; a change of the body that keeps the byte sum mod 256 is not detected. -/
def Obligations.ChecksumDetectsEverySingleBitFlip : Prop :=
  (∀ (f : List Byte) (i : Nat) (k : Nat) (s : State), 5 ≤ f.length → f.length ≤ 512 →
    computedChecksum f = receivedChecksum f → i < f.length → k < 8 →
    ∃ info, exec (.onFrame (f.set i (byteAt f i ^^^ BitVec.twoPow 8 k))) s =
      .next { s with out := s.out ++ [.diag (.checksumMismatch info)] }) ∧
  ∀ (body body' : List Byte) (c : Byte),
    (body.map BitVec.toNat).sum % 256 = (body'.map BitVec.toNat).sum % 256 →
    computedChecksum (body ++ [c]) = receivedChecksum (body ++ [c]) →
    computedChecksum (body' ++ [c]) = receivedChecksum (body' ++ [c])

/-- R100: CHECKSUM is the integer sum mod 256, and reducing after every byte gives the same value. That the value
stands in `ret` is the model's choice, log entry 3. -/
def Obligations.ChecksumIsTheByteSum : Prop :=
  ∀ (bytes : List Byte) (s : State), ∃ c : Byte,
    exec (.checksum bytes) s = .next { s with ret := .byte c } ∧
    c.toNat = (bytes.map BitVec.toNat).sum % 256 ∧
    c.toNat = bytes.foldl (fun acc b => (acc + b.toNat) % 256) 0

/-- R70 to R73, R101: the frame ENCODE builds. That it stands in `ret` is the model's choice, log entry 3. -/
def Obligations.EncodedFrameLayout : Prop :=
  ∀ (id : CommandId) (payload : List Byte) (s : State), payload.length ≤ 508 →
    ∃ f, exec (.encode id payload) s = .next { s with ret := .bytes f } ∧
      f.length = payload.length + 4 ∧
      (byteAt f 0).toNat = (payload.length + 4) / 256 ∧
      (byteAt f 1).toNat = (payload.length + 4) % 256 ∧
      (byteAt f 2).toNat = id.toNat ∧
      (f.drop 3).take payload.length = payload ∧
      (byteAt f (payload.length + 3)).toNat = ((f.take (payload.length + 3)).map BitVec.toNat).sum % 256

/-- An internal operation given an operand outside the domain its rule states stops by name: the model's choice, log
entries 10 and 11. -/
def Obligations.OperandsOutsideTheirDomainStop : Prop :=
  (∀ (id : CommandId) (payload : List Byte) (s : State), 508 < payload.length →
    exec (.encode id payload) s = .fault (.payloadLength payload.length)) ∧
  (∀ (f : List Byte) (s : State), f.length < 5 ∨ 512 < f.length →
    exec (.onFrame f) s = .fault (.frameLength f.length)) ∧
  ∀ (k : Nat) (s : State), s.slots.length ≤ k → exec (.expire k) s = .fault (.slotIndex k)

/-! The Transaction Layer -/

/-- R134: a payload over 508 bytes is rejected before any I/O, whatever the queue holds. -/
def Obligations.SendOfALongPayloadIsRejected : Prop :=
  ∀ (id : CommandId) (payload : List Byte) (timeout : Option Timeout) (s : State), 508 < payload.length →
    exec (.send id payload timeout) s = .next { s with out := s.out ++ [.sendNak .frameTooLarge] }

/-- R130: on a full queue, which under the invariants is an arena with every slot busy, SEND answers QueueFull and
changes nothing else. -/
def Obligations.SendOnAFullQueueIsRejected : Prop :=
  ∀ (id : CommandId) (payload : List Byte) (timeout : Option Timeout) (s : State), s.Inv → payload.length ≤ 508 →
    (∀ k < s.slots.length, s.busyAt k = true) →
    exec (.send id payload timeout) s = .next { s with out := s.out ++ [.sendNak .queueFull] }

/-- R130 to R133: an accepted SEND takes the least free slot, registers the expectation at the tail of the queue, and
emits SendAck and then the frame; every other slot and field stays. -/
def Obligations.AcceptedSendRegistersAndTransmits : Prop :=
  ∀ (id : CommandId) (payload : List Byte) (timeout : Option Timeout) (s : State), s.Inv → payload.length ≤ 508 →
    (∃ k < s.slots.length, s.busyAt k = false) →
    ∃ k e t, exec (.send id payload timeout) s = .next t ∧
      k < s.slots.length ∧ s.busyAt k = false ∧ (∀ j < k, s.busyAt j = true) ∧
      t.slots[k]? = some e ∧ e.busy = true ∧ e.expId.toNat = id.toNat + 128 ∧
      (e.statusExp = true ↔ 0 < payload.length) ∧
      e.deadline.toNat = (s.now.toNat + (timeout.getD 3000#31).toNat) % 2 ^ 32 ∧
      (∀ j, j ≠ k → t.slots[j]? = s.slots[j]?) ∧
      t = { s with
            slots := t.slots
            q := s.q ++ [k]
            out := s.out ++ [.sendAck k, .tx (encodeFrame id payload)] }

/-- R136: a frame whose recomputed checksum differs from its last byte is discarded: the diagnostic carries both, and
nothing else changes. The length field is not looked at. -/
def Obligations.BadChecksumFrameIsDiscarded : Prop :=
  ∀ (body : List Byte) (c : Byte) (s : State), 4 ≤ body.length → body.length ≤ 511 →
    (body.map BitVec.toNat).sum % 256 ≠ c.toNat →
    ∃ info : Half, info.toNat = (body.map BitVec.toNat).sum % 256 * 256 + c.toNat ∧
      exec (.onFrame (body ++ [c])) s = .next { s with out := s.out ++ [.diag (.checksumMismatch info)] }

/-- R137 to R139, R141: a valid frame consumes the oldest expectation, whatever its id: Ok with the status byte split
off when the command had a payload, Ok with the whole payload when it had none, IdMismatch when the id differs. -/
def Obligations.ValidFrameResolvesTheOldest : Prop :=
  ∀ (f : List Byte) (k : Nat) (rest : List Nat) (s : State), s.Inv → 5 ≤ f.length → f.length ≤ 512 →
    computedChecksum f = receivedChecksum f → s.q = k :: rest →
    ∃ e r t, s.slots[k]? = some e ∧ exec (.onFrame f) s = .next t ∧
      (byteAt f 2 = e.expId → e.statusExp = true →
        r = .ok (byteAt f 2) (some (byteAt f 3)) (slice f 4 (f.length - 1))) ∧
      (byteAt f 2 = e.expId → e.statusExp = false → r = .ok (byteAt f 2) none (slice f 3 (f.length - 1))) ∧
      (byteAt f 2 ≠ e.expId → r = .idMismatch (byteAt f 2)) ∧
      t = { s with slots := t.slots, q := rest, out := s.out ++ [.result k r] } ∧
      t.busyAt k = false ∧ (∀ j, j ≠ k → t.slots[j]? = s.slots[j]?) ∧ t.slots.length = s.slots.length

/-- R140: on an empty queue a valid frame with id 0xE0 is decoded as a telegram, and any other is reported as an
orphan and dropped. -/
def Obligations.UnmatchedFramesOnAnEmptyQueue : Prop :=
  ∀ (f : List Byte) (s : State), 5 ≤ f.length → f.length ≤ 512 →
    computedChecksum f = receivedChecksum f → s.q = [] →
    (byteAt f 2 = 0xE0#8 →
      ∃ t, exec (.onFrame f) s = .next t ∧ exec (.decodeTelegram (slice f 3 (f.length - 1))) s = .next t) ∧
    (byteAt f 2 ≠ 0xE0#8 →
      exec (.onFrame f) s = .next { s with out := s.out ++ [.diag (.orphanResponse (byteAt f 2))] })

/-- R254 (marked derived): while an expectation is pending no byte fed, and no frame, is decoded as a telegram. -/
def Obligations.NoTelegramWhileACommandIsPending : Prop :=
  ∀ (s : State), s.Inv → s.q ≠ [] →
    (∀ b : Byte, ∃ t, exec (.feedByte b) s = .next t ∧ ∀ e ∈ newEvents s t, e.isTelegram = false) ∧
    ∀ (f : List Byte) (t : State), exec (.onFrame f) s = .next t → ∀ e ∈ newEvents s t, e.isTelegram = false

/-- R147 (marked derived): two commands A then B, then one valid frame with B's expected id: A is resolved, as
IdMismatch when the expected ids differ and as Ok when they are equal, and B stays pending at the head of the queue.
-/
def Obligations.FramesResolveCommandsInSendOrder : Prop :=
  ∀ (idA idB : CommandId) (pA pB : List Byte) (tA tB : Option Timeout) (f : List Byte) (s : State),
    s.Inv → s.q = [] → 2 ≤ s.slots.length → pA.length ≤ 508 → pB.length ≤ 508 →
    5 ≤ f.length → f.length ≤ 512 → computedChecksum f = receivedChecksum f →
    (byteAt f 2).toNat = idB.toNat + 128 →
    ∃ a b r t, a ≠ b ∧ runAll [.send idA pA tA, .send idB pB tB, .onFrame f] s = .next t ∧
      t.out = s.out ++ [.sendAck a, .tx (encodeFrame idA pA), .sendAck b, .tx (encodeFrame idB pB), .result a r] ∧
      t.q = [b] ∧
      (idA ≠ idB → r = .idMismatch (byteAt f 2)) ∧
      (idA = idB → ∃ status payload, r = .ok (byteAt f 2) status payload)

/-- R143, R144: a TICK advances `now` by one, mod 2^32, and then times out every pending slot whose deadline is
reached, oldest first; the others keep their order, and nothing else changes. -/
def Obligations.TickExpiresReachedDeadlines : Prop :=
  ∀ s : State, s.Inv →
    ∃ t, exec .tick s = .next t ∧
      t.now.toNat = (s.now.toNat + 1) % 2 ^ 32 ∧
      t.q = s.q.filter (fun k => !s.expiredAt (s.now + 1#32) k) ∧
      t.out = s.out ++ (s.q.filter (fun k => s.expiredAt (s.now + 1#32) k)).map (fun k => .result k .timeout) ∧
      (∀ k ∈ s.q, s.expiredAt (s.now + 1#32) k = true → t.busyAt k = false) ∧
      (∀ k, (k ∉ s.q ∨ s.expiredAt (s.now + 1#32) k = false) → t.slots[k]? = s.slots[k]?) ∧
      t = { s with now := t.now, q := t.q, slots := t.slots, out := t.out }

/-- R144: EXPIRE of a slot takes it out of the queue from any position, the others keeping their order, frees it and
emits its Timeout. R144's condition EXPIRED stands in TICK, its caller; that EXPIRE run alone does the same for every
slot of the arena, pending and expired or not, is the model's choice, log entry 15. -/
def Obligations.ExpireRemovesItsSlot : Prop :=
  ∀ (k : Nat) (s : State), s.Inv → k < s.slots.length →
    ∃ t, exec (.expire k) s = .next t ∧
      t = { s with q := s.q.erase k, slots := t.slots, out := s.out ++ [.result k .timeout] } ∧
      t.busyAt k = false ∧ (∀ j, j ≠ k → t.slots[j]? = s.slots[j]?) ∧ t.slots.length = s.slots.length

/-- R145 (marked derived): an expectation accepted with timeout `T` stays pending, with no result, through fewer than
max(T, 1) TICKs, and is timed out by the max(T, 1)-th, whatever other operations but RESET come between, as long as no
frame resolves it. -/
def Obligations.TimeoutFiresOnItsTick : Prop :=
  ∀ (id : CommandId) (payload : List Byte) (timeout : Option Timeout) (s t u : State) (k : Nat) (ops : List Instr),
    s.Inv → exec (.send id payload timeout) s = .next t → .sendAck k ∈ newEvents s t →
    (∀ i ∈ ops, i.isHostOp = true ∧ i ≠ .reset) → runAll ops t = .next u →
    (∀ r, .result k r ∈ newEvents t u → r = .timeout) →
    (ops.count .tick < max (timeout.getD 3000#31).toNat 1 → k ∈ u.q ∧ ∀ r, .result k r ∉ newEvents t u) ∧
    (ops.count .tick + 1 = max (timeout.getD 3000#31).toNat 1 →
      ∃ v, exec .tick u = .next v ∧ .result k .timeout ∈ newEvents u v ∧ k ∉ v.q)

/-- R146 (marked derived): along any run without RESET, the acceptances and the results of a slot balance: a slot that
was not pending and is not pending at the end has had exactly one result for each acceptance. Taken over every part of
a run, it says that acceptances and results of a slot alternate. -/
def Obligations.ExactlyOneResultForEachAcceptance : Prop :=
  ∀ (ops : List Instr) (s t : State) (k : Nat), s.Inv →
    (∀ i ∈ ops, i.isHostOp = true ∧ i ≠ .reset) → runAll ops s = .next t →
    (newEvents s t).countP (Event.isAckOf k) + s.pending k =
      (newEvents s t).countP (Event.isResultOf k) + t.pending k

/-- R262 (marked derived): a response frame with an empty payload is not received: two MalformedLength diagnostics,
the parser back in step, and every expectation still pending. -/
def Obligations.EmptyResponsesAreNotReceived : Prop :=
  ∀ (id c : Byte) (s : State), s.Inv → s.rxExp = none → s.rxCnt = 0 → 0x80 ≤ id.toNat →
    ∃ m l, l.toNat = id.toNat * 256 + c.toNat ∧
      runAll (feed [0x00#8, 0x04#8, id, c]) s =
        .next { s with rxBuf := m, out := s.out ++ [.diag (.malformedLength 4#16), .diag (.malformedLength l)] }

/-! The Telegram Decoder -/

/-- R184: a notification payload of fewer than 2 bytes gives TelegramTruncated of its length and no telegram. -/
def Obligations.ShortNotificationHasNoTelegram : Prop :=
  ∀ (p : List Byte) (s : State), p.length < 2 →
    exec (.decodeTelegram p) s = .next { s with out := s.out ++ [.diag (.telegramTruncated p.length)] }

/-- R185 (marked derived): the source's worked example, mask 0x0007, for every value of its fields. That the mask's
first byte is its high byte is the spec's decision D43, log entry 8. -/
def Obligations.WorkedTelegramExample : Prop :=
  ∀ (l c m0 m1 a0 a1 a2 a3 ver ty : Byte) (app : List Byte) (s : State),
    exec (.decodeTelegram ([0x00#8, 0x07#8, l, c, m0, m1, a0, a1, a2, a3, ver, ty] ++ app)) s =
      .next { s with
        out := s.out ++ [.telegram
          { frameType := .a, rssi := none, timestampRaw := none,
            lengthField := some l, controlField := some c,
            manufacturerId := some (manufacturerCodes (m1 ++ m0)),
            deviceAddress := some (a3 ++ a2 ++ a1 ++ a0),
            deviceVersion := some ver, deviceType := some ty,
            rawApplicationPayload := app, optionMask := 0x0007#16, llOffset := 0,
            incompleteLl := false, truncated := false }] }

/-- R78, R173, R177, R180, R182: when every flagged field fits, each is read at the running offset, in the fixed
order, and everything after the last is the application payload. The mask's byte order is log entry 8. -/
def Obligations.FlaggedFieldsAreReadInOrder : Prop :=
  ∀ (hi lo : Byte) (r : List Byte) (s : State) (mask : Half) (o1 o2 o3 o4 o5 : Nat),
    mask = hi ++ lo →
    o1 = (if mask.getLsbD 15 then 1 else 0) →
    o2 = o1 + (if mask.getLsbD 3 then 4 else 0) →
    o3 = o2 + (if mask.getLsbD 2 then 1 else 0) →
    o4 = o3 + (if mask.getLsbD 1 then 1 else 0) →
    o5 = o4 + (if mask.getLsbD 0 then 8 else 0) →
    o5 ≤ r.length →
    ∃ t : Telegram,
      exec (.decodeTelegram (hi :: lo :: r)) s =
        .next { s with
          out := s.out ++ ([.telegram t] ++ if mask.toNat % 8 = 7 then [] else [.diag (.incompleteLinkLayer mask)]) } ∧
      t.optionMask = mask ∧
      t.frameType = (if mask.getLsbD 4 then .b else .a) ∧
      t.rssi = (if mask.getLsbD 15 then some (byteAt r 0) else none) ∧
      t.timestampRaw = (if mask.getLsbD 3 then some (be32 r o1) else none) ∧
      t.llOffset = o2 ∧
      t.lengthField = (if mask.getLsbD 2 then some (byteAt r o2) else none) ∧
      t.controlField = (if mask.getLsbD 1 then some (byteAt r o3) else none) ∧
      t.manufacturerId = (if mask.getLsbD 0 then some (manufacturerCodes (le16 r o4)) else none) ∧
      t.deviceAddress = (if mask.getLsbD 0 then some (le32 r (o4 + 2)) else none) ∧
      t.deviceVersion = (if mask.getLsbD 0 then some (byteAt r (o4 + 6)) else none) ∧
      t.deviceType = (if mask.getLsbD 0 then some (byteAt r (o4 + 7)) else none) ∧
      t.rawApplicationPayload = r.drop o5 ∧
      t.truncated = false ∧
      (t.incompleteLl = true ↔ mask.toNat % 8 ≠ 7)

/-- R181: when the flagged fields need more bytes than there are, a field is decoded only when it and every flagged
field before it fit; the rest are none, the application payload is empty, and the telegram is followed by
TelegramTruncated. The mask's byte order is log entry 8. -/
def Obligations.TruncatedTelegramKeepsWhatFits : Prop :=
  ∀ (hi lo : Byte) (r : List Byte) (s : State) (mask : Half) (o1 o2 o3 o4 o5 : Nat),
    mask = hi ++ lo →
    o1 = (if mask.getLsbD 15 then 1 else 0) →
    o2 = o1 + (if mask.getLsbD 3 then 4 else 0) →
    o3 = o2 + (if mask.getLsbD 2 then 1 else 0) →
    o4 = o3 + (if mask.getLsbD 1 then 1 else 0) →
    o5 = o4 + (if mask.getLsbD 0 then 8 else 0) →
    r.length < o5 →
    ∃ t : Telegram,
      exec (.decodeTelegram (hi :: lo :: r)) s =
        .next { s with
          out := s.out ++ ([.telegram t] ++ (if t.incompleteLl then [.diag (.incompleteLinkLayer mask)] else []) ++
            [.diag (.telegramTruncated (r.length + 2))]) } ∧
      t.optionMask = mask ∧
      t.frameType = (if mask.getLsbD 4 then .b else .a) ∧
      t.rssi = (if mask.getLsbD 15 ∧ o1 ≤ r.length then some (byteAt r 0) else none) ∧
      t.timestampRaw = (if mask.getLsbD 3 ∧ o2 ≤ r.length then some (be32 r o1) else none) ∧
      t.llOffset = (if o2 ≤ r.length then o2 else if o1 ≤ r.length then o1 else 0) ∧
      t.lengthField = (if mask.getLsbD 2 ∧ o3 ≤ r.length then some (byteAt r o2) else none) ∧
      t.controlField = (if mask.getLsbD 1 ∧ o4 ≤ r.length then some (byteAt r o3) else none) ∧
      t.manufacturerId = none ∧ t.deviceAddress = none ∧ t.deviceVersion = none ∧ t.deviceType = none ∧
      t.rawApplicationPayload = [] ∧
      t.truncated = true ∧
      (t.incompleteLl = true ↔ t.lengthField = none ∨ t.controlField = none ∨ t.manufacturerId = none)

/-- R183: bits 14 to 5 of the option mask consume no bytes and set no field. Two masks that agree elsewhere give the
same telegram but for `option_mask`, and the same diagnostics after it but for the mask IncompleteLinkLayer carries
(R182); nothing else changes. The mask's byte order is log entry 8. -/
def Obligations.ReservedMaskBitsAreIgnored : Prop :=
  ∀ (hi lo hi' lo' : Byte) (r : List Byte) (s : State) (m m' : Half), m = hi ++ lo → m' = hi' ++ lo' →
    (∀ i ∈ [15, 4, 3, 2, 1, 0], m.getLsbD i = m'.getLsbD i) →
    ∃ t : Telegram,
      exec (.decodeTelegram (hi :: lo :: r)) s =
        .next { s with
          out := s.out ++ ([.telegram { t with optionMask := m }] ++
            (if t.incompleteLl then [.diag (.incompleteLinkLayer m)] else []) ++
            (if t.truncated then [.diag (.telegramTruncated (r.length + 2))] else [])) } ∧
      exec (.decodeTelegram (hi' :: lo' :: r)) s =
        .next { s with
          out := s.out ++ ([.telegram { t with optionMask := m' }] ++
            (if t.incompleteLl then [.diag (.incompleteLinkLayer m')] else []) ++
            (if t.truncated then [.diag (.telegramTruncated (r.length + 2))] else [])) }

/-- R79: the three character codes are the 5-bit groups of the manufacturer word plus 64, each in 64 to 95, and bit 15
is ignored; a telegram's word is little-endian at the start of its address block. That the bytes 00 01 are the mask
0x0001 in the last clause is log entry 8. -/
def Obligations.ManufacturerCodeGroups : Prop :=
  (∀ m : Half,
    (manufacturerCodes m)[0].toNat = m.toNat / 1024 % 32 + 64 ∧
    (manufacturerCodes m)[1].toNat = m.toNat / 32 % 32 + 64 ∧
    (manufacturerCodes m)[2].toNat = m.toNat % 32 + 64 ∧
    (∀ c ∈ (manufacturerCodes m).toList, 64 ≤ c.toNat ∧ c.toNat ≤ 95) ∧
    manufacturerCodes (m ^^^ 0x8000#16) = manufacturerCodes m) ∧
  ∀ (m0 m1 : Byte) (rest : List Byte) (s : State), 6 ≤ rest.length →
    ∃ (t : Telegram) (u : State) (m : Half),
      exec (.decodeTelegram ([0x00#8, 0x01#8, m0, m1] ++ rest)) s = .next u ∧
      (newEvents s u).head? = some (.telegram t) ∧
      m.toNat = m0.toNat + 256 * m1.toNat ∧
      t.manufacturerId = some (manufacturerCodes m)

/-! Readings of the host -/

/-- R75: the status texts; codes 8 to 255 are unmapped, and the block reports the raw code. -/
def Obligations.StatusTextOfCodes : Prop :=
  [0, 1, 2, 3, 4, 5, 6, 7].map (fun n => statusText (BitVec.ofNat 8 n)) =
    [.success, .genericError, .parametersNotAccepted, .operationTimeout, .noMemory, .unsupported, .busy, .dutyCycle] ∧
  (∀ c : Byte, 8 ≤ c.toNat → statusText c = .unknown) ∧
  ∀ (e : Slot) (rid : Byte) (p : List Byte), e.expId = rid → e.statusExp = true →
    ∃ data, resultFor e rid p = .ok rid (some (byteAt p 0)) data

/-- R142 (marked derived): the source's `transmission_ok` of each result. -/
def Obligations.TransmissionOkOfResults : Prop :=
  (∀ rid p, transmissionOk (.ok rid none p) = .yes) ∧
  (∀ rid c p, transmissionOk (.ok rid (some c) p) = .status (statusText c)) ∧
  (∀ rid, transmissionOk (.idMismatch rid) = .failedIdMismatch) ∧
  transmissionOk .timeout = .no

/-- R81, R82: the value of an RSSI byte and the seconds of a raw timestamp. That `sext_8` is two's complement is
general knowledge, log entry 16. -/
def Obligations.RssiAndTimestampReadings : Prop :=
  (∀ b : Byte, rssiValue b = if b.toNat < 128 then (b.toNat : Int) else (b.toNat : Int) - 256) ∧
  ∀ raw : BitVec 32, timestampSeconds raw * 32768 = raw.toNat

/-- R220 to R222: the condition codes and the infos of the diagnostics. -/
def Obligations.ConditionCodes : Prop :=
  NakCode.frameTooLarge.code = 0x01#8 ∧ NakCode.queueFull.code = 0x08#8 ∧
  (∀ l, (Diagnostic.malformedLength l).code = 0x02#8 ∧ (Diagnostic.malformedLength l).info = l.toNat) ∧
  (∀ c r : Byte, (Diagnostic.checksumMismatch (c ++ r)).code = 0x03#8 ∧
    (Diagnostic.checksumMismatch (c ++ r)).info = c.toNat * 256 + r.toNat) ∧
  (∀ m, (Diagnostic.incompleteLinkLayer m).code = 0x06#8 ∧ (Diagnostic.incompleteLinkLayer m).info = m.toNat) ∧
  (∀ i, (Diagnostic.orphanResponse i).code = 0x07#8 ∧ (Diagnostic.orphanResponse i).info = i.toNat) ∧
  (∀ n, (Diagnostic.telegramTruncated n).code = 0x09#8 ∧ (Diagnostic.telegramTruncated n).info = n) ∧
  (∀ w, (Diagnostic.illegalOp w).code = 0x0A#8 ∧ (Diagnostic.illegalOp w).info = w.toNat) ∧
  (∀ rid c p, (Result.ok rid c p).kind = 0x00#8) ∧ (∀ rid, (Result.idMismatch rid).kind = 0x04#8) ∧
  Result.timeout.kind = 0x05#8

/-! The whole machine -/

/-- R36: no operation halts the block, refuses further operations, or leaves the state outside R24, R27 and R28; the
queue keeps its order, growing only at its tail. That a step with nothing presented changes nothing is log entry 20.
-/
def Obligations.NoStepStopsOrBreaksTheInvariants : Prop :=
  ∀ s : State, s.Inv → ∃ t, step s = .next t ∧ t.Inv ∧ ((∃ k, t.q = s.q ++ [k]) ∨ t.q.Sublist s.q)

/-- Every instruction, the internal operations run on their own among them, keeps the invariants R24, R27, R28, R131
and the canonical form of the buffer. -/
def Obligations.EveryInstructionKeepsTheInvariants : Prop :=
  ∀ (i : Instr) (s t : State), s.Inv → exec i s = .next t → t.Inv

/-- R38 (marked derived): the buffer at and above `rx_cnt` and the fields of free slots have no effect on any event,
nor on any other state. -/
def Obligations.UnspecifiedStateIsUnobservable : Prop :=
  ∀ (i : Instr) (s t s' : State), s.Inv → t.Inv → s.Agrees t → exec i s = .next s' →
    ∃ t', exec i t = .next t' ∧ s'.Agrees t'

/-- R58, R205: events are only appended; nothing emitted is taken back or reordered. -/
def Obligations.EventsAreOnlyAppended : Prop :=
  ∀ (i : Instr) (s t : State), exec i s = .next t → s.out <+: t.out

/-- R226: the events one operation can emit, and their order. The frame of a FEED_BYTE's events is the one its byte
completes. -/
def Obligations.EventsOfOneOperation : Prop :=
  ∀ s : State, s.Inv →
    (∀ id payload timeout, ∃ t, exec (.send id payload timeout) s = .next t ∧
      (508 < payload.length → newEvents s t = [.sendNak .frameTooLarge]) ∧
      (payload.length ≤ 508 → newEvents s t = [.sendNak .queueFull] ∨
        ∃ k, newEvents s t = [.sendAck k, .tx (encodeFrame id payload)])) ∧
    (∀ b, ∃ t, exec (.feedByte b) s = .next t ∧
      (newEvents s t = [] ∨ (∃ l, newEvents s t = [.diag (.malformedLength l)]) ∨
        IsFrameEvents (s.rxBuf.readFirst s.rxCnt ++ [b]) (newEvents s t))) ∧
    (∀ f : List Byte, 5 ≤ f.length → f.length ≤ 512 → ∃ t, exec (.onFrame f) s = .next t ∧
      IsFrameEvents f (newEvents s t) ∧
      (computedChecksum f ≠ receivedChecksum f → ∃ i, newEvents s t = [.diag (.checksumMismatch i)])) ∧
    (∀ p, ∃ t, exec (.decodeTelegram p) s = .next t ∧ IsDecodeEvents p (newEvents s t)) ∧
    ∃ t, exec .tick s = .next t ∧
      ∃ ks : List Nat, ks.Sublist s.q ∧ newEvents s t = ks.map (fun k => .result k .timeout)

/-- R25, R133: only TICK moves `now`, by one; RESET clears it; nothing else writes it. -/
def Obligations.OnlyTickMovesTime : Prop :=
  ∀ (i : Instr) (s t : State), exec i s = .next t →
    (i = .tick ∧ t.now = s.now + 1#32) ∨ (i = .reset ∧ t.now = 0#32) ∨ (i ≠ .tick ∧ i ≠ .reset ∧ t.now = s.now)

/-- R21, R50, R257: only FEED_BYTE and RESET write the Parser State and the buffer; no TICK clears a partial frame. -/
def Obligations.OnlyFeedByteAndResetTouchTheParser : Prop :=
  ∀ (i : Instr) (s t : State), (∀ b, i ≠ .feedByte b) → i ≠ .reset → exec i s = .next t →
    t.rxBuf = s.rxBuf ∧ t.rxCnt = s.rxCnt ∧ t.rxExp = s.rxExp ∧ t.phase = s.phase

/-- R7, R30: QDEPTH is fixed: no instruction changes the number of slots, which is QDEPTH in the model (log entry 6).
R6, R200: an operation changes none of the operations still to come, whose list is the model's own (log entry 1). Only
CHECKSUM and ENCODE write the model's own `ret` (log entry 3). -/
def Obligations.ArenaSizeAndPortAreFixed : Prop :=
  ∀ (i : Instr) (s t : State), exec i s = .next t →
    t.slots.length = s.slots.length ∧ t.port = s.port ∧
    ((∀ bytes, i ≠ .checksum bytes) → (∀ id p, i ≠ .encode id p) → t.ret = s.ret)

/-- R26, R27: the queue never holds more expectations than there are slots, and is full exactly when every slot is
busy. -/
def Obligations.QueueIsFullExactlyWhenNoSlotIsFree : Prop :=
  ∀ s : State, s.Inv →
    s.q.length ≤ s.slots.length ∧
    (s.q.length = s.slots.length ↔ ∀ k < s.slots.length, s.busyAt k = true)
end

