-- ==== Sys2Proof/Laws/State.lean ====
section
/-! SUPPORT. What each update of the state does to each field, true by unfolding. -/

namespace Sys2Proof.Machine

@[simp] theorem State.emit_rxBuf (s : State) (e : Event) : (s.emit e).rxBuf = s.rxBuf := rfl
@[simp] theorem State.emit_rxCnt (s : State) (e : Event) : (s.emit e).rxCnt = s.rxCnt := rfl
@[simp] theorem State.emit_rxExp (s : State) (e : Event) : (s.emit e).rxExp = s.rxExp := rfl
@[simp] theorem State.emit_now (s : State) (e : Event) : (s.emit e).now = s.now := rfl
@[simp] theorem State.emit_slots (s : State) (e : Event) : (s.emit e).slots = s.slots := rfl
@[simp] theorem State.emit_q (s : State) (e : Event) : (s.emit e).q = s.q := rfl
@[simp] theorem State.emit_port (s : State) (e : Event) : (s.emit e).port = s.port := rfl
@[simp] theorem State.emit_out (s : State) (e : Event) : (s.emit e).out = s.out ++ [e] := rfl
@[simp] theorem State.emit_ret (s : State) (e : Event) : (s.emit e).ret = s.ret := rfl

@[simp] theorem State.emitAll_rxBuf (s : State) (es : List Event) : (s.emitAll es).rxBuf = s.rxBuf := rfl
@[simp] theorem State.emitAll_rxCnt (s : State) (es : List Event) : (s.emitAll es).rxCnt = s.rxCnt := rfl
@[simp] theorem State.emitAll_rxExp (s : State) (es : List Event) : (s.emitAll es).rxExp = s.rxExp := rfl
@[simp] theorem State.emitAll_now (s : State) (es : List Event) : (s.emitAll es).now = s.now := rfl
@[simp] theorem State.emitAll_slots (s : State) (es : List Event) : (s.emitAll es).slots = s.slots := rfl
@[simp] theorem State.emitAll_q (s : State) (es : List Event) : (s.emitAll es).q = s.q := rfl
@[simp] theorem State.emitAll_port (s : State) (es : List Event) : (s.emitAll es).port = s.port := rfl
@[simp] theorem State.emitAll_out (s : State) (es : List Event) : (s.emitAll es).out = s.out ++ es := rfl
@[simp] theorem State.emitAll_ret (s : State) (es : List Event) : (s.emitAll es).ret = s.ret := rfl

@[simp] theorem State.raise_rxBuf (s : State) (d : Diagnostic) : (s.raise d).rxBuf = s.rxBuf := rfl
@[simp] theorem State.raise_rxCnt (s : State) (d : Diagnostic) : (s.raise d).rxCnt = s.rxCnt := rfl
@[simp] theorem State.raise_rxExp (s : State) (d : Diagnostic) : (s.raise d).rxExp = s.rxExp := rfl
@[simp] theorem State.raise_now (s : State) (d : Diagnostic) : (s.raise d).now = s.now := rfl
@[simp] theorem State.raise_slots (s : State) (d : Diagnostic) : (s.raise d).slots = s.slots := rfl
@[simp] theorem State.raise_q (s : State) (d : Diagnostic) : (s.raise d).q = s.q := rfl
@[simp] theorem State.raise_port (s : State) (d : Diagnostic) : (s.raise d).port = s.port := rfl
@[simp] theorem State.raise_out (s : State) (d : Diagnostic) : (s.raise d).out = s.out ++ [.diag d] := rfl
@[simp] theorem State.raise_ret (s : State) (d : Diagnostic) : (s.raise d).ret = s.ret := rfl

@[simp] theorem State.freeSlot_rxBuf (s : State) (k : Nat) : (s.freeSlot k).rxBuf = s.rxBuf := rfl
@[simp] theorem State.freeSlot_rxCnt (s : State) (k : Nat) : (s.freeSlot k).rxCnt = s.rxCnt := rfl
@[simp] theorem State.freeSlot_rxExp (s : State) (k : Nat) : (s.freeSlot k).rxExp = s.rxExp := rfl
@[simp] theorem State.freeSlot_now (s : State) (k : Nat) : (s.freeSlot k).now = s.now := rfl
@[simp] theorem State.freeSlot_slots (s : State) (k : Nat) : (s.freeSlot k).slots = s.slots.modify k (fun e => { e with busy := false }) := rfl
@[simp] theorem State.freeSlot_q (s : State) (k : Nat) : (s.freeSlot k).q = s.q := rfl
@[simp] theorem State.freeSlot_port (s : State) (k : Nat) : (s.freeSlot k).port = s.port := rfl
@[simp] theorem State.freeSlot_out (s : State) (k : Nat) : (s.freeSlot k).out = s.out := rfl
@[simp] theorem State.freeSlot_ret (s : State) (k : Nat) : (s.freeSlot k).ret = s.ret := rfl

@[simp] theorem State.register_rxBuf (s : State) (k : Nat) (e : Slot) : (s.register k e).rxBuf = s.rxBuf := rfl
@[simp] theorem State.register_rxCnt (s : State) (k : Nat) (e : Slot) : (s.register k e).rxCnt = s.rxCnt := rfl
@[simp] theorem State.register_rxExp (s : State) (k : Nat) (e : Slot) : (s.register k e).rxExp = s.rxExp := rfl
@[simp] theorem State.register_now (s : State) (k : Nat) (e : Slot) : (s.register k e).now = s.now := rfl
@[simp] theorem State.register_slots (s : State) (k : Nat) (e : Slot) : (s.register k e).slots = s.slots.set k e := rfl
@[simp] theorem State.register_q (s : State) (k : Nat) (e : Slot) : (s.register k e).q = s.q ++ [k] := rfl
@[simp] theorem State.register_port (s : State) (k : Nat) (e : Slot) : (s.register k e).port = s.port := rfl
@[simp] theorem State.register_out (s : State) (k : Nat) (e : Slot) : (s.register k e).out = s.out := rfl
@[simp] theorem State.register_ret (s : State) (k : Nat) (e : Slot) : (s.register k e).ret = s.ret := rfl

@[simp] theorem State.expire_rxBuf (s : State) (k : Nat) : (s.expire k).rxBuf = s.rxBuf := rfl
@[simp] theorem State.expire_rxCnt (s : State) (k : Nat) : (s.expire k).rxCnt = s.rxCnt := rfl
@[simp] theorem State.expire_rxExp (s : State) (k : Nat) : (s.expire k).rxExp = s.rxExp := rfl
@[simp] theorem State.expire_now (s : State) (k : Nat) : (s.expire k).now = s.now := rfl
@[simp] theorem State.expire_slots (s : State) (k : Nat) : (s.expire k).slots = s.slots.modify k (fun e => { e with busy := false }) := rfl
@[simp] theorem State.expire_q (s : State) (k : Nat) : (s.expire k).q = s.q.filter (fun j => j != k) := rfl
@[simp] theorem State.expire_port (s : State) (k : Nat) : (s.expire k).port = s.port := rfl
@[simp] theorem State.expire_out (s : State) (k : Nat) : (s.expire k).out = s.out ++ [.result k .timeout] := rfl
@[simp] theorem State.expire_ret (s : State) (k : Nat) : (s.expire k).ret = s.ret := rfl

@[simp] theorem State.clearParser_rxBuf (s : State) : (s.clearParser).rxBuf = s.rxBuf := rfl
@[simp] theorem State.clearParser_rxCnt (s : State) : (s.clearParser).rxCnt = 0 := rfl
@[simp] theorem State.clearParser_rxExp (s : State) : (s.clearParser).rxExp = none := rfl
@[simp] theorem State.clearParser_now (s : State) : (s.clearParser).now = s.now := rfl
@[simp] theorem State.clearParser_slots (s : State) : (s.clearParser).slots = s.slots := rfl
@[simp] theorem State.clearParser_q (s : State) : (s.clearParser).q = s.q := rfl
@[simp] theorem State.clearParser_port (s : State) : (s.clearParser).port = s.port := rfl
@[simp] theorem State.clearParser_out (s : State) : (s.clearParser).out = s.out := rfl
@[simp] theorem State.clearParser_ret (s : State) : (s.clearParser).ret = s.ret := rfl

@[simp] theorem bufferByte_rxBuf (b : Byte) (s : State) : (bufferByte b s).rxBuf = s.rxBuf.write s.rxCnt b := rfl
@[simp] theorem bufferByte_rxCnt (b : Byte) (s : State) : (bufferByte b s).rxCnt = s.rxCnt + 1 := rfl
@[simp] theorem bufferByte_rxExp (b : Byte) (s : State) : (bufferByte b s).rxExp = s.rxExp := rfl
@[simp] theorem bufferByte_now (b : Byte) (s : State) : (bufferByte b s).now = s.now := rfl
@[simp] theorem bufferByte_slots (b : Byte) (s : State) : (bufferByte b s).slots = s.slots := rfl
@[simp] theorem bufferByte_q (b : Byte) (s : State) : (bufferByte b s).q = s.q := rfl
@[simp] theorem bufferByte_port (b : Byte) (s : State) : (bufferByte b s).port = s.port := rfl
@[simp] theorem bufferByte_out (b : Byte) (s : State) : (bufferByte b s).out = s.out := rfl
@[simp] theorem bufferByte_ret (b : Byte) (s : State) : (bufferByte b s).ret = s.ret := rfl

@[simp] theorem decodeTelegram_rxBuf (p : List Byte) (s : State) : (decodeTelegram p s).rxBuf = s.rxBuf := rfl
@[simp] theorem decodeTelegram_rxCnt (p : List Byte) (s : State) : (decodeTelegram p s).rxCnt = s.rxCnt := rfl
@[simp] theorem decodeTelegram_rxExp (p : List Byte) (s : State) : (decodeTelegram p s).rxExp = s.rxExp := rfl
@[simp] theorem decodeTelegram_now (p : List Byte) (s : State) : (decodeTelegram p s).now = s.now := rfl
@[simp] theorem decodeTelegram_slots (p : List Byte) (s : State) : (decodeTelegram p s).slots = s.slots := rfl
@[simp] theorem decodeTelegram_q (p : List Byte) (s : State) : (decodeTelegram p s).q = s.q := rfl
@[simp] theorem decodeTelegram_port (p : List Byte) (s : State) : (decodeTelegram p s).port = s.port := rfl
@[simp] theorem decodeTelegram_out (p : List Byte) (s : State) : (decodeTelegram p s).out = s.out ++ telegramEvents Config.maskOrder p := rfl
@[simp] theorem decodeTelegram_ret (p : List Byte) (s : State) : (decodeTelegram p s).ret = s.ret := rfl

end Sys2Proof.Machine
end

