-- ==== Sys2Proof/Laws/Memory.lean ====
section
/-! SUPPORT. The RX buffer: reading what was written, and the canonical form. -/

namespace Sys2Proof.Machine

theorem Memory.read_write_same (m : Memory) (a : Nat) (b : Byte) (h : m.wf) : (m.write a b).read a = b := by
  induction m with
  | nil => by_cases hb : b = Config.unwrittenByte <;> simp [Memory.write, Memory.read, hb]
  | cons c m ih =>
    obtain ⟨hp, hne⟩ := h
    rw [List.pairwise_cons] at hp
    have hm : Memory.wf m := ⟨hp.2, fun x hx => hne x (List.mem_cons_of_mem _ hx)⟩
    have absent : ∀ (m : Memory), (∀ x ∈ m, a < x.1) → Memory.read m a = Config.unwrittenByte := by
      intro m
      induction m with
      | nil => intro _; rfl
      | cons d m ihd =>
        intro hd
        have h1 := hd d List.mem_cons_self
        rw [Memory.read, if_neg (by omega), ihd (fun x hx => hd x (List.mem_cons_of_mem _ hx))]
    unfold Memory.write
    split
    · rename_i hlt
      by_cases hb : b = Config.unwrittenByte
      · rw [if_pos hb, hb]
        exact absent (c :: m) (fun x hx => by
          rcases List.mem_cons.1 hx with rfl | hx
          · exact hlt
          · exact hlt.trans (hp.1 x hx))
      · simp [hb, Memory.read]
    · split
      · rename_i _ heq
        by_cases hb : b = Config.unwrittenByte
        · rw [if_pos hb, hb]
          exact absent m (fun x hx => heq ▸ hp.1 x hx)
        · simp [hb, Memory.read]
      · rename_i _ hne'
        rw [Memory.read, if_neg (Ne.symm hne'), ih hm]

theorem Memory.read_write_other (m : Memory) (a a' : Nat) (b : Byte) (h : a' ≠ a) :
    (m.write a b).read a' = m.read a' := by
  induction m with
  | nil => by_cases hb : b = Config.unwrittenByte <;> simp [Memory.write, Memory.read, hb, h.symm]
  | cons c m ih =>
    unfold Memory.write
    split
    · by_cases hb : b = Config.unwrittenByte <;> simp [Memory.read, hb, h.symm]
    · split
      · rename_i _ heq
        have hc : c.1 ≠ a' := fun hh => h (by omega)
        by_cases hb : b = Config.unwrittenByte
        · rw [if_pos hb, Memory.read, if_neg hc]
        · rw [if_neg hb, Memory.read, if_neg h.symm, Memory.read, if_neg hc]
      · rw [Memory.read, Memory.read, ih]

/-- Every address a write leaves listed was listed before, or is the one written. -/
theorem Memory.mem_write {m : Memory} {a : Nat} {b : Byte} {c : Host.Cell} (h : c ∈ m.write a b) :
    c ∈ m ∨ c = (a, b) ∧ b ≠ Config.unwrittenByte := by
  induction m with
  | nil =>
    by_cases hb : b = Config.unwrittenByte <;> simp [Memory.write, hb] at h ⊢
    exact h
  | cons d m ih =>
    unfold Memory.write at h
    split at h
    · by_cases hb : b = Config.unwrittenByte <;> simp [hb] at h ⊢ <;> tauto
    · split at h
      · by_cases hb : b = Config.unwrittenByte <;> simp [hb] at h ⊢ <;> tauto
      · rcases List.mem_cons.1 h with rfl | h
        · simp
        · rcases ih h with h | h
          · exact .inl (List.mem_cons_of_mem _ h)
          · exact .inr h

/-- The one writing operation keeps the canonical form. -/
theorem Memory.write_wf (m : Memory) (a : Nat) (b : Byte) (h : m.wf) (ha : a < Config.rxBufCap) :
    (m.write a b).wf := by
  refine ⟨?_, fun c hc => ?_⟩
  · obtain ⟨hp, hne⟩ := h
    induction m with
    | nil => by_cases hb : b = Config.unwrittenByte <;> simp [Memory.write, hb]
    | cons d m ih =>
      rw [List.pairwise_cons] at hp
      have ih := ih hp.2 (fun x hx => hne x (List.mem_cons_of_mem _ hx))
      unfold Memory.write
      split
      · rename_i hlt
        by_cases hb : b = Config.unwrittenByte
        · rw [if_pos hb]
          exact List.pairwise_cons.2 hp
        · rw [if_neg hb]
          refine List.pairwise_cons.2 ⟨fun x hx => ?_, List.pairwise_cons.2 hp⟩
          rcases List.mem_cons.1 hx with rfl | hx
          · exact hlt
          · exact hlt.trans (hp.1 x hx)
      · split
        · rename_i _ heq
          by_cases hb : b = Config.unwrittenByte
          · rw [if_pos hb]
            exact hp.2
          · rw [if_neg hb]
            exact List.pairwise_cons.2 ⟨fun x hx => heq ▸ hp.1 x hx, hp.2⟩
        · refine List.pairwise_cons.2 ⟨fun x hx => ?_, ih⟩
          rcases Memory.mem_write hx with hx | ⟨rfl, _⟩
          · exact hp.1 x hx
          · show d.1 < a
            omega
  · rcases Memory.mem_write hc with hc | ⟨rfl, hb⟩
    · exact h.2 c hc
    · exact ⟨hb, ha⟩

theorem Memory.length_readFirst (m : Memory) (n : Nat) : (m.readFirst n).length = n := by
  simp [Memory.readFirst]

theorem Memory.readFirst_succ (m : Memory) (n : Nat) : m.readFirst (n + 1) = m.readFirst n ++ [m.read n] := by
  simp [Memory.readFirst, List.range_succ]

theorem Memory.readFirst_congr {m m' : Memory} {n : Nat} (h : ∀ a < n, m.read a = m'.read a) :
    m.readFirst n = m'.readFirst n :=
  List.map_congr_left (fun a ha => h a (List.mem_range.1 ha))

/-- The bytes below a written index, then the written byte. -/
theorem Memory.readFirst_write (m : Memory) (n : Nat) (b : Byte) (h : m.wf) :
    (m.write n b).readFirst (n + 1) = m.readFirst n ++ [b] := by
  rw [Memory.readFirst_succ, Memory.read_write_same m n b h]
  congr 1
  exact Memory.readFirst_congr (fun a ha => Memory.read_write_other m n a b (by omega))

/-- The reset state's buffer is in canonical form. -/
theorem reset_rxBuf_wf : State.reset.rxBuf.wf := ⟨List.Pairwise.nil, fun _ h => absurd h List.not_mem_nil⟩

end Sys2Proof.Machine
end

