-- ==== Sys2Proof/Laws/Codec.lean ====
section
/-! SUPPORT. Byte sequences, the checksum and the shape of an encoded frame. -/

namespace Sys2Proof.Machine

theorem byteAt_append_left (s t : List Byte) (i : Nat) (h : i < s.length) : byteAt (s ++ t) i = byteAt s i := by
  simp [byteAt, List.getD, List.getElem?_append_left h]

theorem byteAt_append_length (s : List Byte) (b : Byte) : byteAt (s ++ [b]) s.length = b := by
  simp [byteAt, List.getD]

theorem byteAt_lt (s : List Byte) (i : Nat) (h : i < s.length) : byteAt s i = s[i] := by
  simp [byteAt, List.getD, List.getElem?_eq_getElem h]

theorem slice_zero (s : List Byte) (j : Nat) : slice s 0 j = s.take j := by simp [slice]

@[simp] theorem checksum_nil : checksum [] = 0#8 := rfl

@[simp] theorem checksum_cons (b : Byte) (s : List Byte) : checksum (b :: s) = b + checksum s := by
  apply BitVec.eq_of_toNat_eq
  simp [checksum, BitVec.toNat_add]

@[simp] theorem checksum_append (s t : List Byte) : checksum (s ++ t) = checksum s + checksum t := by
  induction s with
  | nil => simp
  | cons b s ih => simp [ih, BitVec.add_assoc]

/-- The checksum as the rule writes it: the integer sum mod 256. -/
theorem toNat_checksum (s : List Byte) : (checksum s).toNat = (s.map BitVec.toNat).sum % 256 := by
  simp [checksum]

/-- ON_FRAME's check on a sequence and its last byte. -/
@[simp] theorem computedChecksum_concat (s : List Byte) (c : Byte) : computedChecksum (s ++ [c]) = checksum s := by
  simp [computedChecksum, slice_zero]

@[simp] theorem receivedChecksum_concat (s : List Byte) (c : Byte) : receivedChecksum (s ++ [c]) = c := by
  simp [receivedChecksum, byteAt_append_length]

@[simp] theorem length_frameHead (id : CommandId) (p : List Byte) : (frameHead id p).length = p.length + 3 := by
  simp [frameHead]

@[simp] theorem length_encodeFrame (id : CommandId) (p : List Byte) : (encodeFrame id p).length = p.length + 4 := by
  simp [encodeFrame]

/-- An encoded frame passes ON_FRAME's checksum test. -/
theorem encodeFrame_checksum (id : CommandId) (p : List Byte) :
    computedChecksum (encodeFrame id p) = receivedChecksum (encodeFrame id p) := by
  simp [encodeFrame]

theorem encodeFrame_id (id : CommandId) (p : List Byte) : byteAt (encodeFrame id p) 2 = requestId id := rfl

theorem encodeFrame_payload (id : CommandId) (p : List Byte) : framePayload (encodeFrame id p) = p := by
  simp [framePayload, slice, encodeFrame, frameHead]

/-- The first two bytes of an encoded frame are its length, big-endian (30_encoding.md R70, R71). -/
theorem encodeFrame_prefix (id : CommandId) (p : List Byte) (h : p.length ≤ 508) :
    (byteAt (encodeFrame id p) 0 ++ byteAt (encodeFrame id p) 1 : Half).toNat = p.length + 4 := by
  have h0 : byteAt (encodeFrame id p) 0 = (BitVec.ofNat 16 (p.length + 4)).extractLsb' 8 8 := rfl
  have h1 : byteAt (encodeFrame id p) 1 = (BitVec.ofNat 16 (p.length + 4)).extractLsb' 0 8 := rfl
  rw [h0, h1, BitVec.toNat_append, BitVec.extractLsb'_toNat, BitVec.extractLsb'_toNat, BitVec.toNat_ofNat,
    Nat.shiftRight_eq_div_pow, Nat.shiftRight_eq_div_pow, ← Nat.shiftLeft_add_eq_or_of_lt (by omega),
    Nat.shiftLeft_eq]
  omega

theorem toNat_requestId (id : CommandId) : (requestId id).toNat = id.toNat := by
  rw [requestId, BitVec.toNat_append]
  simp

/-- The expected response id is `id | 0x80`, in `0x80` to `0xFF` (41_transaction.md R131). -/
theorem toNat_responseId (id : CommandId) : (responseId id).toNat = id.toNat + 0x80 := by
  have h := id.isLt
  rw [responseId, BitVec.toNat_or, toNat_requestId, Config.respBit, Nat.or_comm]
  exact Nat.two_pow_add_eq_or_of_lt h 1 |>.symm.trans (by omega)

theorem toNat_be16 (a b : Byte) : (a ++ b : Half).toNat = a.toNat * 256 + b.toNat := by
  have := b.isLt
  rw [BitVec.toNat_append, ← Nat.shiftLeft_add_eq_or_of_lt (by omega), Nat.shiftLeft_eq]

end Sys2Proof.Machine
end

