-- ==== Sys2Proof/Laws/Queue.lean ====
section
/-! SUPPORT. The slot arena and the queue: which slot a SEND takes, and what TICK's loop does. -/

namespace Sys2Proof.Machine

theorem State.busyAt_iff (s : State) (k : Nat) :
    s.busyAt k = true ↔ ∃ e, s.slots[k]? = some e ∧ e.busy = true := by
  unfold State.busyAt
  cases h : s.slots[k]? <;> simp

theorem State.busyAt_lt {s : State} {k : Nat} (h : s.busyAt k = true) : k < s.slots.length := by
  obtain ⟨e, he, _⟩ := (s.busyAt_iff k).1 h
  exact (List.getElem?_eq_some_iff.1 he).1

theorem State.busyAt_congr {s t : State} {k : Nat} (h : s.slots[k]? = t.slots[k]?) : s.busyAt k = t.busyAt k := by
  unfold State.busyAt
  rw [h]

theorem State.slot_of_mem_q {s : State} (h : s.QueueInv) {k : Nat} (hk : k ∈ s.q) :
    ∃ e, s.slots[k]? = some e ∧ e.busy = true := (s.busyAt_iff k).1 (h.2.1 k hk)

theorem State.mem_q_iff {s : State} (h : s.QueueInv) (k : Nat) : k ∈ s.q ↔ s.busyAt k = true :=
  ⟨h.2.1 k, fun hb => h.2.2 k (State.busyAt_lt hb) hb⟩

/-- Freeing a slot: that slot is free, the others are as before. -/
theorem State.busyAt_freed (l : List Slot) (s : State) (k j : Nat)
    (h : s.slots = l.modify k (fun e => { e with busy := false })) (t : State) (ht : t.slots = l) :
    s.busyAt j = (t.busyAt j && j != k) := by
  unfold State.busyAt
  rw [h, ht, List.getElem?_modify]
  by_cases hjk : k = j
  · subst hjk
    cases l[k]? <;> simp
  · have : j ≠ k := fun hh => hjk hh.symm
    cases l[j]? <;> simp [hjk, this]

@[simp] theorem State.busyAt_freeSlot (s : State) (k j : Nat) :
    (s.freeSlot k).busyAt j = (s.busyAt j && j != k) :=
  State.busyAt_freed s.slots _ k j rfl s rfl

@[simp] theorem State.busyAt_expire (s : State) (k j : Nat) :
    (s.expire k).busyAt j = (s.busyAt j && j != k) :=
  State.busyAt_freed s.slots _ k j rfl s rfl

/-- The free slot SEND takes is free, and every lower one is busy (41_transaction.md R132). -/
theorem State.leastFree_some {s : State} {k : Nat} (h : s.leastFree = some k) :
    k < s.slots.length ∧ s.busyAt k = false ∧ ∀ j < k, s.busyAt j = true := by
  obtain ⟨hk, hfree, hbelow⟩ := List.findIdx?_eq_some_iff_getElem.1 h
  refine ⟨hk, ?_, fun j hj => ?_⟩
  · unfold State.busyAt
    rw [List.getElem?_eq_getElem hk]
    simpa using hfree
  · unfold State.busyAt
    rw [List.getElem?_eq_getElem (hj.trans hk)]
    simpa using hbelow j hj

theorem State.leastFree_none {s : State} (h : s.leastFree = none) {k : Nat} (hk : k < s.slots.length) :
    s.busyAt k = true := by
  have := List.findIdx?_eq_none_iff.1 h (s.slots[k]) (List.getElem_mem hk)
  unfold State.busyAt
  rw [List.getElem?_eq_getElem hk]
  simpa using this

/-- A queue never outgrows the arena (10_state.md R27). -/
theorem State.length_q_le {s : State} (h : s.QueueInv) : s.q.length ≤ s.slots.length := by
  have hsub : s.q ⊆ List.range s.slots.length := fun k hk =>
    List.mem_range.2 (State.busyAt_lt (h.2.1 k hk))
  simpa using (List.subperm_of_subset h.1 hsub).length_le

/-- A queue that is not full leaves a free slot. -/
theorem State.leastFree_isSome {s : State} (h : s.QueueInv) (hne : s.q.length ≠ s.slots.length) :
    ∃ k, s.leastFree = some k := by
  cases hl : s.leastFree with
  | some k => exact ⟨k, rfl⟩
  | none =>
    exfalso
    have hsub : List.range s.slots.length ⊆ s.q := fun k hk =>
      h.2.2 k (List.mem_range.1 hk) (State.leastFree_none hl (List.mem_range.1 hk))
    have h1 := (List.subperm_of_subset List.nodup_range hsub).length_le
    have h2 := State.length_q_le h
    simp at h1
    omega

/-! TICK's loop -/

@[simp] theorem State.expiredAt_expire (s : State) (k : Nat) (now : Time) (j : Nat) :
    (s.expire k).expiredAt now j = s.expiredAt now j := by
  unfold State.expiredAt
  rw [State.expire_slots, List.getElem?_modify]
  by_cases h : k = j <;> cases s.slots[j]? <;> simp [h]

/-- What TICK's loop leaves when every slot it looks at exists: the expired ones expire, one after another. -/
def expireAll (ks : List Nat) (s : State) : State :=
  ks.foldl (fun s k => if s.expiredAt s.now k then s.expire k else s) s

theorem expireAll_cons (k : Nat) (ks : List Nat) (s : State) :
    expireAll (k :: ks) s = expireAll ks (if s.expiredAt s.now k then s.expire k else s) := rfl

/-- TICK's loop keeps the number of slots. -/
@[simp] theorem length_expireAll (ks : List Nat) (s : State) : (expireAll ks s).slots.length = s.slots.length := by
  induction ks generalizing s with
  | nil => rfl
  | cons k ks ih =>
    rw [expireAll_cons, ih]
    split
    · rw [State.expire_slots, List.length_modify]
    · rfl

theorem expireScan_eq (ks : List Nat) (s : State) (h : ∀ k ∈ ks, k < s.slots.length) :
    expireScan ks s = .next (expireAll ks s) := by
  induction ks generalizing s with
  | nil => rfl
  | cons k ks ih =>
    have hk := h k List.mem_cons_self
    have hks : ∀ j ∈ ks, j < s.slots.length := fun j hj => h j (List.mem_cons_of_mem _ hj)
    rw [expireAll_cons, expireScan, List.getElem?_eq_getElem hk]
    have hx : s.expiredAt s.now k = isExpired s.now s.slots[k].deadline := by
      simp [State.expiredAt, List.getElem?_eq_getElem hk]
    show (if isExpired s.now s.slots[k].deadline = true then _ else _) = _
    rw [← hx]
    by_cases hexp : s.expiredAt s.now k = true
    · rw [if_pos hexp, if_pos hexp]
      exact ih (s.expire k) (by simpa using hks)
    · rw [if_neg hexp, if_neg hexp]
      exact ih s hks

/-- The loop answers a next state only over slots that exist. -/
theorem expireScan_next {ks : List Nat} {s t : State} (h : expireScan ks s = .next t) : t = expireAll ks s := by
  induction ks generalizing s with
  | nil => exact (Host.Outcome.next.inj h).symm
  | cons k ks ih =>
    rw [expireScan] at h
    rw [expireAll_cons]
    cases hs : s.slots[k]? with
    | none => rw [hs] at h; cases h
    | some e =>
      rw [hs] at h
      have hx : s.expiredAt s.now k = isExpired s.now e.deadline := by simp [State.expiredAt, hs]
      rw [hx]
      cases hexp : isExpired s.now e.deadline <;> simp only [hexp, if_true, Bool.false_eq_true, if_false] at h ⊢ <;>
        exact ih h

/-- Everything TICK's loop changes, and that it changes nothing else. -/
theorem expireAll_spec (ks : List Nat) (s : State) :
    (expireAll ks s).rxBuf = s.rxBuf ∧ (expireAll ks s).rxCnt = s.rxCnt ∧ (expireAll ks s).rxExp = s.rxExp ∧
    (expireAll ks s).now = s.now ∧ (expireAll ks s).port = s.port ∧ (expireAll ks s).ret = s.ret ∧
    (expireAll ks s).q = s.q.filter (fun j => !(ks.contains j && s.expiredAt s.now j)) ∧
    (expireAll ks s).out =
      s.out ++ (ks.filter (fun k => s.expiredAt s.now k)).map (fun k => .result k .timeout) ∧
    ∀ j, (expireAll ks s).slots[j]? =
      s.slots[j]?.map (fun e => if ks.contains j && isExpired s.now e.deadline then { e with busy := false } else e) := by
  induction ks generalizing s with
  | nil => simp [expireAll]
  | cons k ks ih =>
    rw [expireAll_cons]
    by_cases hexp : s.expiredAt s.now k = true
    · simp only [hexp, if_true]
      obtain ⟨h1, h2, h3, h4, h5, h6, h7, h8, h9⟩ := ih (s.expire k)
      refine ⟨h1, h2, h3, h4, h5, h6, ?_, ?_, fun j => ?_⟩
      · rw [h7, State.expire_q, List.filter_filter]
        apply List.filter_congr
        intro j _
        simp only [State.expiredAt_expire, State.expire_now, List.contains_cons]
        by_cases hj : j = k
        · subst hj; simp [hexp]
        · have hne : (j != k) = true := by simpa using hj
          have heq : (j == k) = false := by simpa using hj
          rw [hne, heq, Bool.and_true, Bool.false_or]
      · rw [h8]
        simp [State.expire_out, hexp]
      · rw [h9, State.expire_slots, List.getElem?_modify]
        by_cases hj : k = j
        · subst hj
          have hd : ∀ e, s.slots[k]? = some e → isExpired s.now e.deadline = true := by
            intro e he
            simpa [State.expiredAt, he] using hexp
          cases hs : s.slots[k]? with
          | none => simp
          | some e => simp [hd e hs]
        · have hjk : j ≠ k := fun hh => hj hh.symm
          cases hs : s.slots[j]? <;> simp [hj, hjk]
    · simp only [hexp, Bool.false_eq_true, if_false]
      obtain ⟨h1, h2, h3, h4, h5, h6, h7, h8, h9⟩ := ih s
      refine ⟨h1, h2, h3, h4, h5, h6, ?_, ?_, fun j => ?_⟩
      · rw [h7]
        apply List.filter_congr
        intro j _
        by_cases hj : j = k
        · subst hj; simp [hexp]
        · simp [hj]
      · rw [h8]
        simp [hexp]
      · rw [h9]
        by_cases hj : j = k
        · subst hj
          have hd : ∀ e, s.slots[j]? = some e → isExpired s.now e.deadline = false := by
            intro e he
            simpa [State.expiredAt, he] using hexp
          cases hs : s.slots[j]? with
          | none => simp
          | some e => simp [hd e hs]
        · simp [hj]

end Sys2Proof.Machine
end

