-- ==== Sys2Proof/Laws/Telegram.lean ====
section
/-! SUPPORT. The Telegram Decoder: what one field does, and the closed form of a telegram when every flagged field fits. -/

namespace Sys2Proof.Machine

/-- A take that fits. -/
theorem takeBytes_fits {k : Nat} {r : List Byte} {o : Nat} (h : o + k ≤ r.length) :
    takeBytes k r ⟨o, false⟩ = (some (slice r o (o + k)), ⟨o + k, false⟩) := by
  simp [takeBytes, h]

/-- A take that does not fit. -/
theorem takeBytes_short {k : Nat} {r : List Byte} {o : Nat} (h : r.length < o + k) :
    takeBytes k r ⟨o, false⟩ = (none, ⟨o, true⟩) := by
  have : ¬ o + k ≤ r.length := by omega
  simp [takeBytes, this]

/-- A take after the data ran out. -/
theorem takeBytes_trunc (k : Nat) (r : List Byte) (o : Nat) :
    takeBytes k r ⟨o, true⟩ = (none, ⟨o, true⟩) := by
  simp [takeBytes]

theorem readField_clear {mask : Half} {row : FieldRow} (h : mask.getLsbD row.bit = false) (r : List Byte)
    (acc : Reader × Telegram) : readField mask r acc row = acc := by
  simp [readField, h]

theorem readField_fits {mask : Half} {row : FieldRow} (h : mask.getLsbD row.bit = true) {r : List Byte} {o : Nat}
    (hfit : o + row.size ≤ r.length) (t : Telegram) :
    readField mask r (⟨o, false⟩, t) row =
      (⟨o + row.size, false⟩, storeField t (slice r o (o + row.size)) row.field) := by
  simp [readField, h, takeBytes_fits hfit]

theorem readField_short {mask : Half} {row : FieldRow} (h : mask.getLsbD row.bit = true) {r : List Byte} {o : Nat}
    (hshort : r.length < o + row.size) (t : Telegram) :
    readField mask r (⟨o, false⟩, t) row = (⟨o, true⟩, t) := by
  simp [readField, h, takeBytes_short hshort]

/-- Once the data has run out no field is read (42_telegram.md R172). -/
theorem readField_trunc (mask : Half) (row : FieldRow) (r : List Byte) (o : Nat) (t : Telegram) :
    readField mask r (⟨o, true⟩, t) row = (⟨o, true⟩, t) := by
  by_cases h : mask.getLsbD row.bit <;> simp [readField, h, takeBytes_trunc]

/-- The bytes a row of the field list needs under a mask (42_telegram.md R171). -/
def rowNeeds (mask : Half) (row : FieldRow) : Nat := if mask.getLsbD row.bit then row.size else 0

/-- A row whose bytes are there: the offset moves past them, and a flagged field takes them. -/
theorem readField_within {mask : Half} {row : FieldRow} {r : List Byte} {o : Nat} (h : o + rowNeeds mask row ≤ r.length)
    (t : Telegram) :
    readField mask r (⟨o, false⟩, t) row =
      (⟨o + rowNeeds mask row, false⟩,
       if mask.getLsbD row.bit then storeField t (slice r o (o + row.size)) row.field else t) := by
  unfold rowNeeds at h ⊢
  cases hb : mask.getLsbD row.bit
  · rw [readField_clear hb]
    rfl
  · rw [hb] at h
    rw [readField_fits hb h]
    rfl

/-- A row whose bytes are not all there: nothing is read from then on (42_telegram.md R181). -/
theorem readField_beyond {mask : Half} {row : FieldRow} {r : List Byte} {o : Nat} (ho : o ≤ r.length)
    (h : r.length < o + rowNeeds mask row) (t : Telegram) :
    readField mask r (⟨o, false⟩, t) row = (⟨o, true⟩, t) := by
  unfold rowNeeds at h
  cases hb : mask.getLsbD row.bit
  · rw [hb] at h
    simp at h
    omega
  · rw [hb] at h
    exact readField_short hb h t

theorem byteAt_slice (r : List Byte) (o k i : Nat) (hi : i < k) : byteAt (slice r o (o + k)) i = byteAt r (o + i) := by
  simp [byteAt, slice, List.getD, hi]

theorem le16_slice (r : List Byte) (o k i : Nat) (h : i + 1 < k) : le16 (slice r o (o + k)) i = le16 r (o + i) := by
  unfold le16
  rw [byteAt_slice _ _ _ _ (by omega), byteAt_slice _ _ _ _ (by omega)]
  rfl

theorem be32_slice (r : List Byte) (o k i : Nat) (h : i + 3 < k) : be32 (slice r o (o + k)) i = be32 r (o + i) := by
  unfold be32
  rw [byteAt_slice _ _ _ _ (by omega), byteAt_slice _ _ _ _ (by omega), byteAt_slice _ _ _ _ (by omega),
    byteAt_slice _ _ _ _ (by omega)]
  rfl

theorem le32_slice (r : List Byte) (o k i : Nat) (h : i + 3 < k) : le32 (slice r o (o + k)) i = le32 r (o + i) := by
  unfold le32
  rw [byteAt_slice _ _ _ _ (by omega), byteAt_slice _ _ _ _ (by omega), byteAt_slice _ _ _ _ (by omega),
    byteAt_slice _ _ _ _ (by omega)]
  rfl

/-! A field stored or not, as one record: this keeps a chain of fields from doubling at each row. -/

theorem storeField_if_rssi (b : Bool) (t : Telegram) (v : List Byte) :
    (if b = true then storeField t v .rssi else t) = { t with rssi := if b then some (byteAt v 0) else t.rssi } := by
  cases b <;> rfl

theorem storeField_if_timestamp (b : Bool) (t : Telegram) (v : List Byte) :
    (if b = true then storeField t v .timestamp else t) =
      { t with timestampRaw := if b then some (be32 v 0) else t.timestampRaw } := by
  cases b <;> rfl

theorem storeField_if_length (b : Bool) (t : Telegram) (v : List Byte) :
    (if b = true then storeField t v .length else t) =
      { t with lengthField := if b then some (byteAt v 0) else t.lengthField } := by
  cases b <;> rfl

theorem storeField_if_control (b : Bool) (t : Telegram) (v : List Byte) :
    (if b = true then storeField t v .control else t) =
      { t with controlField := if b then some (byteAt v 0) else t.controlField } := by
  cases b <;> rfl

theorem storeField_if_address (b : Bool) (t : Telegram) (v : List Byte) :
    (if b = true then storeField t v .address else t) =
      { t with
        manufacturerId := if b then some (manufacturerCodes (le16 v 0)) else t.manufacturerId
        deviceAddress := if b then some (le32 v 2) else t.deviceAddress
        deviceVersion := if b then some (byteAt v 6) else t.deviceVersion
        deviceType := if b then some (byteAt v 7) else t.deviceType } := by
  cases b <;> rfl

theorem isNone_if {α : Type} (b : Bool) (a : α) : (if b = true then some a else none).isNone = !b := by
  cases b <;> rfl

@[simp] theorem storeField_optionMask (t : Telegram) (v : List Byte) (f : Field) :
    (storeField t v f).optionMask = t.optionMask := by
  cases f <;> rfl

/-- No field changes the mask the record keeps. -/
@[simp] theorem readField_optionMask (mask : Half) (r : List Byte) (acc : Reader × Telegram) (row : FieldRow) :
    (readField mask r acc row).2.optionMask = acc.2.optionMask := by
  unfold readField
  split
  · split <;> simp
  · rfl

/-- The record keeps the whole option mask (42_telegram.md R183). -/
theorem telegramOf_optionMask (mask : Half) (r : List Byte) : (telegramOf mask r).optionMask = mask := by
  simp [telegramOf, finishTelegram, readFields, fieldsBeforeLl, fieldsAfterLl, emptyTelegram]

/-- The events of a notification of at least two bytes (42_telegram.md R173), with the mask big-endian (entry 8). -/
theorem telegramEvents_cons (hi lo : Byte) (r : List Byte) :
    telegramEvents Config.maskOrder (hi :: lo :: r) =
      [.telegram (telegramOf (hi ++ lo) r)] ++
        (if (telegramOf (hi ++ lo) r).incompleteLl then [.diag (.incompleteLinkLayer (hi ++ lo))] else []) ++
        (if (telegramOf (hi ++ lo) r).truncated then [.diag (.telegramTruncated (r.length + 2))] else []) := by
  have hr : slice (hi :: lo :: r) 2 (hi :: lo :: r).length = r := by simp [slice]
  unfold telegramEvents
  rw [if_neg (by simp), hr]
  rfl

end Sys2Proof.Machine
end

