-- ==== Sys2Proof/Laws/Meanings.lean ====
section
/-! SUPPORT. What each meaning can answer, said once: if it answers a next state, one of these cases holds. -/

namespace Sys2Proof.Machine

theorem next_inj {s t : State} (h : (Host.Outcome.next s : Host.Outcome State Fault Refusal) = .next t) : t = s :=
  (Host.Outcome.next.inj h).symm

/-- SEND is rejected as too large, rejected on a full queue, or accepted into the least free slot. -/
theorem execSend_cases {id : CommandId} {p : List Byte} {tmo : Option Timeout} {s t : State}
    (h : execSend id p tmo s = .next t) :
    (508 < p.length ∧ t = s.emit (.sendNak .frameTooLarge)) ∨
    (p.length ≤ 508 ∧ s.q.length = s.slots.length ∧ t = s.emit (.sendNak .queueFull)) ∨
    ∃ k, p.length ≤ 508 ∧ s.q.length ≠ s.slots.length ∧ s.leastFree = some k ∧
      t = ((s.register k (expectation id p tmo s.now)).emit (.sendAck k)).emit (.tx (encodeFrame id p)) := by
  unfold execSend at h
  split at h
  · rename_i hlong
    exact .inl ⟨hlong, next_inj h⟩
  · rename_i hlong
    have hlen : p.length ≤ 508 := Nat.le_of_not_lt hlong
    split at h
    · rename_i hfull
      exact .inr (.inl ⟨hlen, hfull, next_inj h⟩)
    · rename_i hfull
      split at h
      · cases h
      · rename_i k hk
        exact .inr (.inr ⟨k, hlen, hfull, hk, next_inj h⟩)

/-- ON_FRAME discards a bad frame, resolves the oldest expectation, or dispatches on an empty queue. -/
theorem onFrame_cases {f : List Byte} {s t : State} (h : onFrame f s = .next t) :
    5 ≤ f.length ∧ f.length ≤ 512 ∧
    ((computedChecksum f ≠ receivedChecksum f ∧
        t = s.raise (.checksumMismatch (computedChecksum f ++ receivedChecksum f))) ∨
     (computedChecksum f = receivedChecksum f ∧ s.q = [] ∧ t = dispatchUnsolicited f s) ∨
     ∃ k rest e, computedChecksum f = receivedChecksum f ∧ s.q = k :: rest ∧ s.slots[k]? = some e ∧
        t = resolveHead f k e rest s) := by
  unfold onFrame at h
  split at h
  · rename_i hlen
    refine ⟨hlen.1, hlen.2, ?_⟩
    split at h
    · rename_i hsum
      unfold acceptFrame at h
      split at h
      · rename_i hq
        exact .inr (.inl ⟨hsum, hq, next_inj h⟩)
      · rename_i k rest hq
        split at h
        · cases h
        · rename_i e he
          exact .inr (.inr ⟨k, rest, e, hsum, hq, he, next_inj h⟩)
    · rename_i hsum
      exact .inl ⟨hsum, next_inj h⟩
  · cases h

/-- A frame of legal length on a queue that names only slots of the arena is handled. -/
theorem onFrame_isNext {f : List Byte} {s : State} (h5 : 5 ≤ f.length) (h512 : f.length ≤ 512)
    (hq : ∀ k ∈ s.q, k < s.slots.length) : ∃ t, onFrame f s = .next t := by
  unfold onFrame
  rw [if_pos ⟨h5, h512⟩]
  by_cases hsum : computedChecksum f = receivedChecksum f
  · rw [if_pos hsum]
    unfold acceptFrame
    cases hs : s.q with
    | nil => exact ⟨_, rfl⟩
    | cons k rest =>
      have hk := hq k (by simp [hs])
      exact ⟨resolveHead f k s.slots[k] rest s, by simp [List.getElem?_eq_getElem hk]⟩
  · rw [if_neg hsum]
    exact ⟨_, rfl⟩

/-- The oldest expectation is consumed: out of the queue, freed, and its result emitted (41_transaction.md R135). -/
theorem resolveHead_eq (f : List Byte) (k : Nat) (e : Slot) (rest : List Nat) (s : State) :
    resolveHead f k e rest s =
      { s with
        q := rest
        slots := s.slots.modify k (fun e => { e with busy := false })
        out := s.out ++ [.result k (resultFor e (byteAt f 2) (framePayload f))] } := rfl

/-- The two ways a valid frame is dispatched on an empty queue (41_transaction.md R140). -/
theorem dispatchUnsolicited_cases (f : List Byte) (s : State) :
    (byteAt f 2 = 0xE0#8 ∧ dispatchUnsolicited f s = decodeTelegram (framePayload f) s) ∨
    (byteAt f 2 ≠ 0xE0#8 ∧ dispatchUnsolicited f s = s.raise (.orphanResponse (byteAt f 2))) := by
  unfold dispatchUnsolicited
  by_cases h : byteAt f 2 = 0xE0#8
  · exact .inl ⟨h, if_pos h⟩
  · exact .inr ⟨h, if_neg h⟩

/-- Dispatching only emits. -/
theorem dispatchUnsolicited_eq (f : List Byte) (s : State) :
    ∃ es, dispatchUnsolicited f s = s.emitAll es ∧
      (es = telegramEvents Config.maskOrder (framePayload f) ∨ es = [.diag (.orphanResponse (byteAt f 2))]) := by
  rcases dispatchUnsolicited_cases f s with ⟨_, h⟩ | ⟨_, h⟩
  · exact ⟨_, h, .inl rfl⟩
  · exact ⟨_, h, .inr rfl⟩

/-- FEED_BYTE buffers the byte and waits, rejects the prefix, accepts the prefix, or completes a frame. -/
theorem execFeedByte_cases {b : Byte} {s t : State} (h : execFeedByte b s = .next t) :
    s.rxCnt < 512 ∧
    ((s.rxExp = none ∧ s.rxCnt ≠ 1 ∧ t = bufferByte b s) ∨
     (s.rxExp = none ∧ s.rxCnt = 1 ∧ t = checkPrefix (bufferByte b s)) ∨
     (∃ l, s.rxExp = some l ∧ s.rxCnt + 1 ≠ l.toNat ∧ t = bufferByte b s) ∨
     ∃ l, s.rxExp = some l ∧ s.rxCnt + 1 = l.toNat ∧
       onFrame ((s.rxBuf.write s.rxCnt b).readFirst l.toNat) (bufferByte b s).clearParser = .next t) := by
  unfold execFeedByte at h
  split at h
  · rename_i hcnt
    refine ⟨hcnt, ?_⟩
    split at h
    · rename_i hexp
      by_cases h2 : s.rxCnt + 1 = 2
      · rw [if_pos h2] at h
        exact .inr (.inl ⟨hexp, by omega, next_inj h⟩)
      · rw [if_neg h2] at h
        exact .inl ⟨hexp, by omega, next_inj h⟩
    · rename_i l hexp
      by_cases hl : s.rxCnt + 1 = l.toNat
      · rw [if_pos hl] at h
        exact .inr (.inr (.inr ⟨l, hexp, hl, h⟩))
      · rw [if_neg hl] at h
        exact .inr (.inr (.inl ⟨l, hexp, hl, next_inj h⟩))
  · cases h

/-- A malformed length prefix in numbers (40_frame_codec.md R103). -/
theorem isMalformedLength_iff (l : Half) : isMalformedLength l = true ↔ l.toNat < 5 ∨ 512 < l.toNat := by
  show (decide (l.toNat < 5) || decide (512 < l.toNat)) = true ↔ _
  simp

/-- The prefix check either drops the two bytes with a diagnostic or sets the expected length (40_frame_codec.md R102,
R103). -/
theorem checkPrefix_cases (s : State) :
    (((s.rxBuf.read 0 ++ s.rxBuf.read 1 : Half).toNat < 5 ∨ 512 < (s.rxBuf.read 0 ++ s.rxBuf.read 1 : Half).toNat) ∧
      checkPrefix s = { s with rxCnt := 0 }.raise (.malformedLength (s.rxBuf.read 0 ++ s.rxBuf.read 1))) ∨
    (5 ≤ (s.rxBuf.read 0 ++ s.rxBuf.read 1 : Half).toNat ∧ (s.rxBuf.read 0 ++ s.rxBuf.read 1 : Half).toNat ≤ 512 ∧
      checkPrefix s = { s with rxExp := some (s.rxBuf.read 0 ++ s.rxBuf.read 1) }) := by
  unfold checkPrefix
  by_cases h : isMalformedLength (s.rxBuf.read 0 ++ s.rxBuf.read 1) = true
  · exact .inl ⟨(isMalformedLength_iff _).1 h, if_pos h⟩
  · have hlen := not_or.1 (mt (isMalformedLength_iff _).2 h)
    exact .inr ⟨Nat.le_of_not_lt hlen.1, Nat.le_of_not_lt hlen.2, if_neg h⟩

/-- TICK answers the loop over the queue, after the increment. -/
theorem execTick_cases {s t : State} (h : execTick s = .next t) : t = expireAll s.q { s with now := s.now + 1#32 } :=
  expireScan_next h

theorem execTick_eq {s : State} (h : ∀ k ∈ s.q, k < s.slots.length) :
    execTick s = .next (expireAll s.q { s with now := s.now + 1#32 }) := expireScan_eq s.q _ h

theorem execExpire_cases {k : Nat} {s t : State} (h : execExpire k s = .next t) :
    k < s.slots.length ∧ t = s.expire k := by
  unfold execExpire at h
  split at h
  · rename_i hk
    exact ⟨hk, next_inj h⟩
  · cases h

theorem execEncode_cases {id : CommandId} {p : List Byte} {s t : State} (h : execEncode id p s = .next t) :
    p.length ≤ 508 ∧ t = { s with ret := .bytes (encodeFrame id p) } := by
  unfold execEncode at h
  split at h
  · rename_i hp
    exact ⟨hp, next_inj h⟩
  · cases h

theorem slots_lt_of_queueInv {s : State} (h : s.QueueInv) : ∀ k ∈ s.q, k < s.slots.length :=
  fun k hk => State.busyAt_lt (h.2.1 k hk)

end Sys2Proof.Machine
end

