-- ==== Sys2Proof/Laws/Words.lean ====
section
/-! SUPPORT. Host words in numbers: the fields of a word, the words the encoder builds, and the side port's lanes. -/

namespace Sys2Proof

/-- A field of a host word as a number (00_scope.md R9). -/
theorem toNat_field (w : HostWord) (lo len : Nat) : (w.extractLsb' lo len).toNat = w.toNat / 2 ^ lo % 2 ^ len := by
  rw [BitVec.extractLsb'_toNat, Nat.shiftRight_eq_div_pow]

theorem HostWord.isFeedByte_iff (w : HostWord) :
    HostWord.isFeedByte w = true ↔ w.toNat / 2 ^ 28 = 1 ∧ w.toNat / 2 ^ 8 % 2 ^ 20 = 0 := by
  have := w.isLt
  unfold HostWord.isFeedByte HostWord.op
  rw [Bool.and_eq_true, beq_iff_eq, beq_iff_eq, ← BitVec.toNat_inj, ← BitVec.toNat_inj, toNat_field, toNat_field]
  simp
  omega

theorem HostWord.isSend_iff (w : HostWord) :
    HostWord.isSend w = true ↔ w.toNat / 2 ^ 28 = 2 ∧ w.toNat / 2 ^ 17 % 2 ^ 11 = 0 := by
  have := w.isLt
  unfold HostWord.isSend HostWord.op
  rw [Bool.and_eq_true, beq_iff_eq, beq_iff_eq, ← BitVec.toNat_inj, ← BitVec.toNat_inj, toNat_field, toNat_field]
  simp
  omega

theorem HostWord.isTick_iff (w : HostWord) : HostWord.isTick w = true ↔ w.toNat = 3 * 2 ^ 28 := by
  have := w.isLt
  unfold HostWord.isTick HostWord.op
  rw [Bool.and_eq_true, beq_iff_eq, beq_iff_eq, ← BitVec.toNat_inj, ← BitVec.toNat_inj, toNat_field, toNat_field]
  simp
  omega

theorem HostWord.isReset_iff (w : HostWord) : HostWord.isReset w = true ↔ w.toNat = 15 * 2 ^ 28 := by
  have := w.isLt
  unfold HostWord.isReset HostWord.op
  rw [Bool.and_eq_true, beq_iff_eq, beq_iff_eq, ← BitVec.toNat_inj, ← BitVec.toNat_inj, toNat_field, toNat_field]
  simp
  omega

theorem toNat_feedByteWord (b : Byte) : (feedByteWord b).toNat = 0x10000000 + b.toNat := by
  have := b.isLt
  unfold feedByteWord
  simp only [BitVec.toNat_append]
  rw [← Nat.shiftLeft_add_eq_or_of_lt (by omega)]
  simp [Nat.shiftLeft_eq]

theorem toNat_sendWord (n : BitVec 9) (t : Bool) (id : CommandId) :
    (sendWord n t id).toNat = 0x20000000 + n.toNat * 256 + t.toNat * 128 + id.toNat := by
  have h1 := n.isLt
  have h2 := id.isLt
  have h3 : t.toNat ≤ 1 := Bool.toNat_le t
  unfold sendWord
  simp only [BitVec.toNat_append, BitVec.toNat_ofBool]
  rw [← Nat.shiftLeft_add_eq_or_of_lt (by omega), ← Nat.shiftLeft_add_eq_or_of_lt (by omega),
    ← Nat.shiftLeft_add_eq_or_of_lt (by omega)]
  simp [Nat.shiftLeft_eq]
  omega

/-- The timeout-given bit of a word in numbers. -/
theorem getLsbD_timeoutGiven (w : HostWord) : w.getLsbD 7 = true ↔ w.toNat / 128 % 2 = 1 := by
  rw [BitVec.getLsbD, Nat.testBit_eq_decide_div_mod_eq]
  simp

/-- The first lanes of the side port carry the payload put on it. -/
theorem take_drivePayload (p : List Byte) (h : p.length ≤ maxHostPayload) :
    (drivePayload p).toList.take p.length = p := by
  show List.take p.length (List.take maxHostPayload (p ++ _)) = p
  rw [List.take_take, Nat.min_eq_left h, List.take_append_of_le_length (Nat.le_refl _), List.take_length]

/-- The rows' masks, as numbers: they keep the word from a bit upward. -/
theorem toNat_maskFeedByte (w : HostWord) : (w &&& 0xFFFFFF00#32).toNat = w.toNat / 2 ^ 8 * 2 ^ 8 := by
  have h : w &&& 0xFFFFFF00#32 = (w >>> 8) <<< 8 := by
    ext i hi
    interval_cases i <;> simp
  have := w.isLt
  rw [h, BitVec.toNat_shiftLeft, BitVec.toNat_ushiftRight, Nat.shiftRight_eq_div_pow, Nat.shiftLeft_eq]
  omega

theorem toNat_maskSend (w : HostWord) : (w &&& 0xFFFE0000#32).toNat = w.toNat / 2 ^ 17 * 2 ^ 17 := by
  have h : w &&& 0xFFFE0000#32 = (w >>> 17) <<< 17 := by
    ext i hi
    interval_cases i <;> simp
  have := w.isLt
  rw [h, BitVec.toNat_shiftLeft, BitVec.toNat_ushiftRight, Nat.shiftRight_eq_div_pow, Nat.shiftLeft_eq]
  omega

end Sys2Proof
end

