-- ==== Sys2Proof/Laws/PerInstr.lean ====
section
/-! SUPPORT. The facts stated for every instruction: the word the encoder writes is of the row of spec/opcode_table.json
that the instruction stands for (30_encoding.md R85). -/

namespace Sys2Proof.Laws.EncodesToItsRow

/-- An instruction that has a host word is encoded to a word of its own row of the opcode table. -/
def Statement (i : Instr) : Prop :=
  i.wellFormed = true → ∀ c, encode i = some c → tableMnemonic c.word = i.mnemonic

/-- The opcode table's row of a word, in numbers. -/
theorem tableMnemonic_eq (w : HostWord) :
    tableMnemonic w =
      if HostWord.isFeedByte w then "FEED_BYTE"
      else if HostWord.isSend w then "SEND"
      else if HostWord.isTick w then "TICK"
      else if HostWord.isReset w then "RESET"
      else "ILLEGAL" := by
  have hw := w.isLt
  have h1 : rowMatches w ⟨"FEED_BYTE", 0xFFFFFF00#32, 0x10000000#32⟩ = HostWord.isFeedByte w := by
    rw [Bool.eq_iff_iff, HostWord.isFeedByte_iff, rowMatches, beq_iff_eq, ← BitVec.toNat_inj, toNat_maskFeedByte]
    simp
    omega
  have h2 : rowMatches w ⟨"SEND", 0xFFFE0000#32, 0x20000000#32⟩ = HostWord.isSend w := by
    rw [Bool.eq_iff_iff, HostWord.isSend_iff, rowMatches, beq_iff_eq, ← BitVec.toNat_inj, toNat_maskSend]
    simp
    omega
  have hall : (w &&& 0xFFFFFFFF#32) = w := BitVec.and_allOnes
  have h3 : rowMatches w ⟨"TICK", 0xFFFFFFFF#32, 0x30000000#32⟩ = HostWord.isTick w := by
    rw [Bool.eq_iff_iff, HostWord.isTick_iff, rowMatches, beq_iff_eq, hall, ← BitVec.toNat_inj]
    simp
  have h4 : rowMatches w ⟨"RESET", 0xFFFFFFFF#32, 0xF0000000#32⟩ = HostWord.isReset w := by
    rw [Bool.eq_iff_iff, HostWord.isReset_iff, rowMatches, beq_iff_eq, hall, ← BitVec.toNat_inj]
    simp
  unfold tableMnemonic opcodeTable
  simp only [List.find?_cons, List.find?_nil, h1, h2, h3, h4]
  cases HostWord.isFeedByte w <;> cases HostWord.isSend w <;> cases HostWord.isTick w <;>
    cases HostWord.isReset w <;> rfl

theorem feedByte (b : Byte) : Statement (.feedByte b) := by
  intro _ c h
  obtain rfl := (Option.some.inj h).symm
  have hb := b.isLt
  have hw := toNat_feedByteWord b
  show tableMnemonic (feedByteWord b) = "FEED_BYTE"
  rw [tableMnemonic_eq, if_pos ((HostWord.isFeedByte_iff _).2 ⟨by omega, by omega⟩)]

theorem send (id : CommandId) (payload : List Byte) (timeout : Option Timeout) :
    Statement (.send id payload timeout) := by
  intro _ c h
  simp only [Sys2Proof.encode] at h
  split at h
  · obtain rfl := (Option.some.inj h).symm
    have hn := (BitVec.ofNat 9 payload.length).isLt
    have hid := id.isLt
    have ht : timeout.isSome.toNat ≤ 1 := Bool.toNat_le _
    have hw := toNat_sendWord (BitVec.ofNat 9 payload.length) timeout.isSome id
    show tableMnemonic (sendWord (BitVec.ofNat 9 payload.length) timeout.isSome id) = "SEND"
    rw [tableMnemonic_eq, if_neg (fun h => by have := (HostWord.isFeedByte_iff _).1 h; omega),
      if_pos ((HostWord.isSend_iff _).2 ⟨by omega, by omega⟩)]
  · cases h

theorem tick : Statement .tick := by
  intro _ c h
  obtain rfl := (Option.some.inj h).symm
  decide

theorem reset : Statement .reset := by
  intro _ c h
  obtain rfl := (Option.some.inj h).symm
  decide

theorem illegal (w : HostWord) : Statement (.illegal w) := by
  intro hwf c h
  obtain rfl := (Option.some.inj h).symm
  have hl : HostWord.isLegal w = false := by simpa [Instr.wellFormed] using hwf
  simp only [HostWord.isLegal, Bool.or_eq_false_iff] at hl
  obtain ⟨⟨⟨h1, h2⟩, h3⟩, h4⟩ := hl
  rw [tableMnemonic_eq, h1, h2, h3, h4]
  rfl

theorem checksum (bytes : List Byte) : Statement (.checksum bytes) := fun _ _ h => nomatch h

theorem encode (id : CommandId) (payload : List Byte) : Statement (.encode id payload) := fun _ _ h => nomatch h

theorem onFrame (frame : List Byte) : Statement (.onFrame frame) := fun _ _ h => nomatch h

theorem expire (slot : Nat) : Statement (.expire slot) := fun _ _ h => nomatch h

theorem decodeTelegram (payload : List Byte) : Statement (.decodeTelegram payload) := fun _ _ h => nomatch h

end Sys2Proof.Laws.EncodesToItsRow
end

