-- ==== Sys2Proof/Laws/Runs.lean ====
section
/-! SUPPORT. Running sequences of operations. -/

namespace Sys2Proof.Machine

@[simp] theorem runAll_nil (s : State) : runAll [] s = .next s := rfl

/-- The first operation, then the rest from the state it leaves. -/
theorem runAll_cons {i : Instr} {s t : State} (is : List Instr) (h : exec i s = .next t) :
    runAll (i :: is) s = runAll is t := by
  rw [runAll, h]

/-- A run that ends in a next state: the first operation answers one, and the rest runs from it. -/
theorem runAll_cons_next {i : Instr} {is : List Instr} {s u : State} (h : runAll (i :: is) s = .next u) :
    ∃ t, exec i s = .next t ∧ runAll is t = .next u := by
  rw [runAll] at h
  cases hx : exec i s with
  | next t => rw [hx] at h; exact ⟨t, rfl, h⟩
  | fault r => rw [hx] at h; cases h
  | refused r => rw [hx] at h; cases h

/-- Two sequences, one after the other. -/
theorem runAll_append {is : List Instr} {s t : State} (js : List Instr) (h : runAll is s = .next t) :
    runAll (is ++ js) s = runAll js t := by
  induction is generalizing s with
  | nil => rw [Host.Outcome.next.inj h]; rfl
  | cons i is ih =>
    obtain ⟨u, hu, hrest⟩ := runAll_cons_next h
    rw [List.cons_append, runAll_cons _ hu, ih hrest]

theorem feed_append (bs cs : List Byte) : feed (bs ++ cs) = feed bs ++ feed cs := List.map_append

/-- The events of a step that appended `es`. -/
theorem newEvents_eq {s t : State} {es : List Event} (h : t.out = s.out ++ es) : newEvents s t = es := by
  unfold newEvents
  rw [h, List.drop_left]

end Sys2Proof.Machine
end

