-- ==== Sys2Proof/Tests/Slice0.lean ====
section
/-! SUPPORT. The model's own tests. Expected values are the vectors of 95_test_vectors.md, or words written out from
30_encoding.md R85. Below them, one or more witnesses for each statement that has hypotheses: concrete values that meet
all of them together. -/

namespace Sys2Proof.Tests

set_option Elab.async false

open Sys2Proof Sys2Proof.Machine

/-! Small states and readings -/

/-- A block of two slots, all free, with an empty parser. -/
def calm : State := { State.reset with slots := [Slot.free, Slot.free] }

/-- Slot 0 waits for the response to a command 0x01, until tick 50. -/
def waiting (statusExp : Bool) : State :=
  { calm with slots := [⟨true, 0x81#8, statusExp, 50#32⟩, Slot.free], q := [0] }

/-- Both slots wait, slot 1 the older. -/
def crowded : State :=
  { calm with slots := [⟨true, 0x82#8, true, 1#32⟩, ⟨true, 0x81#8, false, 9#32⟩], q := [1, 0] }

/-- The parser after one prefix byte. -/
def onePrefixByte (hi : Byte) : State := { calm with rxBuf := Memory.write [] 0 hi, rxCnt := 1 }

/-- The parser after `n` bytes of a 5-byte frame: 00 05 81 00 are its first four. -/
def inShortFrame (n : Nat) : State := { calm with rxBuf := [(1, 0x05#8), (2, 0x81#8)], rxCnt := n, rxExp := some 5#16 }

/-- The parser after `n` bytes of a 512-byte frame whose other bytes are zero. -/
def inLongFrame (n : Nat) : State := { calm with rxBuf := [(0, 0x02#8)], rxCnt := n, rxExp := some 512#16 }

/-- The next state of an outcome. -/
def nextOf : Host.Outcome State Fault Refusal → Option State
  | .next s => some s
  | .fault _ => none
  | .refused _ => none

/-- The fault of an outcome. -/
def faultOf : Host.Outcome State Fault Refusal → Option Fault
  | .next _ => none
  | .fault r => some r
  | .refused _ => none

/-- The events an outcome leaves. -/
def outOf (o : Host.Outcome State Fault Refusal) : Option (List Event) := (nextOf o).map State.out

/-- The state, its next state read off: for a witness about a next state. -/
theorem next_of_nextOf {o : Host.Outcome State Fault Refusal} {s : State} (h : nextOf o = some s) : o = .next s := by
  cases o with
  | next t => exact congrArg _ (Option.some.inj h)
  | fault r => cases h
  | refused r => cases h

/-! WellFormed refuses an ill-formed term for each of its checks -/

theorem test_wellFormed_refuses_a_legal_word : (Instr.illegal 0x30000000#32).wellFormed = false := by decide
theorem test_wellFormed_refuses_an_encode_of_509 :
    (Instr.encode 0x01#7 (List.replicate 509 0x00#8)).wellFormed = false := by decide +kernel
theorem test_wellFormed_refuses_a_frame_of_4 : (Instr.onFrame (List.replicate 4 0x00#8)).wellFormed = false := by decide
theorem test_wellFormed_refuses_a_frame_of_513 :
    (Instr.onFrame (List.replicate 513 0x00#8)).wellFormed = false := by decide +kernel
theorem test_wellFormed_refuses_an_empty_notification : (Instr.decodeTelegram []).wellFormed = false := by decide
theorem test_wellFormed_refuses_a_notification_of_509 :
    (Instr.decodeTelegram (List.replicate 509 0x00#8)).wellFormed = false := by decide +kernel
theorem test_wellFormed_allows_the_bounds :
    (Instr.encode 0x01#7 (List.replicate 508 0x00#8)).wellFormed = true ∧
    (Instr.onFrame (List.replicate 5 0x00#8)).wellFormed = true ∧
    (Instr.onFrame (List.replicate 512 0x00#8)).wellFormed = true ∧
    (Instr.decodeTelegram [0x00#8]).wellFormed = true ∧
    (Instr.illegal 0x30000001#32).wellFormed = true := by decide +kernel

/-! Decoding, each word written out field by field from 30_encoding.md R85 -/

/-- FEED_BYTE: OP 0001, twenty zeros, b = 10100101. -/
theorem test_decode_feedByte :
    decode ⟨0b0001#4 ++ 0b00000000000000000000#20 ++ 0b10100101#8, drivePayload [], 0#31⟩ = .feedByte 0xA5#8 := by
  decide

/-- SEND: OP 0010, eleven zeros, n = 000000010, T = 1, id = 0000011. -/
theorem test_decode_send :
    decode ⟨0b0010#4 ++ 0b00000000000#11 ++ 0b000000010#9 ++ 0b1#1 ++ 0b0000011#7,
      drivePayload [0x10#8, 0x20#8], 100#31⟩ = .send 0x03#7 [0x10#8, 0x20#8] (some 100#31) := by
  decide

/-- SEND with T = 0: the timeout side port is not read. -/
theorem test_decode_send_without_timeout :
    decode ⟨0b0010#4 ++ 0b00000000000#11 ++ 0b000000000#9 ++ 0b0#1 ++ 0b1111111#7, drivePayload [0x10#8], 100#31⟩ =
      .send 0x7F#7 [] none := by
  decide

/-- TICK: OP 0011, twenty-eight zeros. -/
theorem test_decode_tick :
    decode ⟨0b0011#4 ++ 0b0000000000000000000000000000#28, drivePayload [0xFF#8], 7#31⟩ = .tick := by decide

/-- RESET: OP 1111, twenty-eight zeros. -/
theorem test_decode_reset :
    decode ⟨0b1111#4 ++ 0b0000000000000000000000000000#28, drivePayload [0xFF#8], 7#31⟩ = .reset := by decide

/-- ILLEGAL: OP 0100 and OP 1110 are reserved (vectors HW-11 and HW-12), and so is RESET with a bit set (HW-13). -/
theorem test_decode_illegal :
    decode ⟨0b0100#4 ++ 0b0000000000000000000000000000#28, drivePayload [], 0#31⟩ = .illegal 0x40000000#32 ∧
    decode ⟨0b1110#4 ++ 0b0000000000000000000000000000#28, drivePayload [], 0#31⟩ = .illegal 0xE0000000#32 ∧
    decode ⟨0b1111#4 ++ 0b0000000000000000000000000001#28, drivePayload [], 0#31⟩ = .illegal 0xF0000001#32 := by
  decide

/-- The host's reading of table words: one of each row, and a number that is no 32-bit word. -/
theorem test_decodeTableWord :
    decodeTableWord 32 0x100000FF = some (.feedByte 0xFF#8) ∧
    decodeTableWord 32 0x20000002 = some (.send 0x02#7 [] none) ∧
    decodeTableWord 32 0x30000000 = some .tick ∧
    decodeTableWord 32 0xF0000000 = some .reset ∧
    decodeTableWord 32 0x00000000 = some (.illegal 0#32) ∧
    decodeTableWord 32 0x100000000 = none := by decide

/-- A word placed by the host is the next operation run. -/
theorem test_withFetchWord_runs : (nextOf (step (State.reset.withFetchWord 32 0x30000000))).map State.now = some 1#32 := by
  decide

/-- Vector HW-4: a SEND word with `n` = 509 is decoded, and rejected. -/
theorem test_step_send_word_of_509 :
    outOf (step { calm with port := [.command ⟨0x2001FD01#32, drivePayload [], 0#31⟩] }) =
      some [.sendNak .frameTooLarge] := by decide +kernel

/-! One step each -/

/-- Vector HW-1. -/
theorem test_feedByte_buffers : (nextOf (exec (.feedByte 0xFF#8) State.reset)).map (fun s => (s.rxCnt, s.rxBuf)) =
    some (1, [(0, 0xFF#8)]) := by decide

/-- Vector OF-6: the fifth byte of 00 05 81 00 87 completes a frame with a bad checksum. -/
theorem test_feedByte_completes :
    (nextOf (exec (.feedByte 0x87#8) (inShortFrame 4))).map (fun s => (s.rxCnt, s.rxExp, s.out)) =
      some (0, none, [.diag (.checksumMismatch 0x8687#16)]) := by decide

/-- Vector TX-1. -/
theorem test_send_accepted :
    (nextOf (exec (.send 0x01#7 [0x05#8] (some 50#31)) State.reset)).map (fun s => (s.q, s.slots[0]?, s.out)) =
      some ([0], some ⟨true, 0x81#8, true, 50#32⟩,
        [.sendAck 0, .tx [0x00#8, 0x05#8, 0x01#8, 0x05#8, 0x0B#8]]) := by decide

/-- Vector TK-6: the deadline wraps. -/
theorem test_send_deadline_wraps :
    (nextOf (exec (.send 0x01#7 [] (some 3#31)) { calm with now := 0xFFFFFFFE#32 })).map
      (fun s => s.slots[0]?.map Slot.deadline) = some (some 1#32) := by decide

/-- Vector TK-1, its 50th tick. -/
theorem test_tick_expires :
    (nextOf (exec .tick { waiting true with now := 49#32 })).map (fun s => (s.now, s.q, s.out)) =
      some (50#32, [], [.result 0 .timeout]) := by decide

/-- Vector TK-7: the largest timeout does not expire early across the wrap. -/
theorem test_tick_keeps_the_largest_timeout :
    (nextOf (exec .tick
      { calm with now := 0xFFFFFFFE#32, slots := [⟨true, 0x81#8, false, 0x7FFFFFFD#32⟩, Slot.free], q := [0] })).map
        (fun s => (s.now, s.q, s.out)) = some (0xFFFFFFFF#32, [0], []) := by decide

/-- Vector RS-1: no result for the discarded expectation. -/
theorem test_reset_discards :
    (nextOf (exec .reset { waiting true with rxCnt := 3, now := 51#32 })).map
      (fun s => (s.q, s.rxCnt, s.now, s.busyAt 0, s.out)) = some ([], 0, 0#32, false, []) := by decide

/-- Vector HW-7. -/
theorem test_illegal_reports : outOf (exec (.illegal 0#32) State.reset) = some [.diag (.illegalOp 0#32)] := by
  decide

/-- The example of 40_frame_codec.md R100. -/
theorem test_checksum : (nextOf (exec (.checksum [0x00#8, 0x05#8, 0x01#8, 0x05#8]) calm)).map State.ret =
    some (.byte 0x0B#8) := by decide

/-- The example of 40_frame_codec.md R101. -/
theorem test_encode : (nextOf (exec (.encode 0x01#7 [0x05#8]) calm)).map State.ret =
    some (.bytes [0x00#8, 0x05#8, 0x01#8, 0x05#8, 0x0B#8]) := by decide

/-- Vector OF-1: the status byte is split off. -/
theorem test_onFrame_matches :
    (nextOf (exec (.onFrame [0x00#8, 0x06#8, 0x81#8, 0x00#8, 0xAA#8, 0x31#8]) (waiting true))).map
      (fun s => (s.q, s.out)) = some ([], [.result 0 (.ok 0x81#8 (some 0x00#8) [0xAA#8])]) := by decide

/-- Vector OF-7: a notification consumes the pending expectation. -/
theorem test_onFrame_notification_while_waiting :
    outOf (exec (.onFrame [0x00#8, 0x07#8, 0xE0#8, 0x00#8, 0x07#8, 0x2C#8, 0x1A#8]) (waiting true)) =
      some [.result 0 (.idMismatch 0xE0#8)] := by decide

/-- 41_transaction.md R144: EXPIRE takes a slot that is not the head of the queue. -/
theorem test_expire : (nextOf (exec (.expire 0) crowded)).map (fun s => (s.q, s.busyAt 0, s.out)) =
    some ([1], false, [.result 0 .timeout]) := by decide

/-- Vector DT-1. -/
theorem test_decodeTelegram :
    outOf (exec (.decodeTelegram
      [0x00#8, 0x07#8, 0x2C#8, 0x44#8, 0x2D#8, 0x2C#8, 0x78#8, 0x56#8, 0x34#8, 0x12#8, 0x01#8, 0x07#8, 0x7A#8,
        0x01#8, 0x02#8]) calm) =
      some [.telegram
        { frameType := .a, rssi := none, timestampRaw := none, lengthField := some 0x2C#8,
          controlField := some 0x44#8, manufacturerId := some #v[75#8, 65#8, 77#8],
          deviceAddress := some 0x12345678#32, deviceVersion := some 0x01#8, deviceType := some 0x07#8,
          rawApplicationPayload := [0x7A#8, 0x01#8, 0x02#8], optionMask := 0x0007#16, llOffset := 0,
          incompleteLl := false, truncated := false }] := by decide

/-- Vector DT-8: the timestamp does not fit, and nothing after it is read. -/
theorem test_decodeTelegram_truncated :
    outOf (exec (.decodeTelegram [0x00#8, 0x0F#8, 0x01#8, 0x02#8, 0x03#8]) calm) =
      some [.telegram { emptyTelegram 0x000F#16 with incompleteLl := true, truncated := true },
        .diag (.incompleteLinkLayer 0x000F#16), .diag (.telegramTruncated 5)] := by decide

/-- Vector DT-11: the two byte orders of the mask. -/
theorem test_maskOf :
    maskOf .be [0x07#8, 0x00#8, 0x2C#8] = 0x0700#16 ∧ maskOf .le [0x07#8, 0x00#8, 0x2C#8] = 0x0007#16 := by decide

/-- The host's readings: the vectors of RSSI values, the letters of the manufacturer word 0x2C2D, D41's rendering. -/
theorem test_host_readings :
    [0x00#8, 0x7F#8, 0x80#8, 0xB5#8, 0xFF#8].map rssiValue = [0, 127, -128, -75, -1] ∧
    manufacturerLetters (manufacturerCodes 0x2C2D#16) = ['K', 'A', 'M'] ∧
    renderAddress 0x12345678#32 = ['1', '2', '3', '4', '5', '6', '7', '8'] := by decide

/-- A fault stands for an operand outside a rule's domain only. -/
theorem test_faults :
    faultOf (exec (.expire 2) calm) = some (.slotIndex 2) ∧
    faultOf (exec (.onFrame [0x00#8]) calm) = some (.frameLength 1) := by decide

/-! The invariants hold of the small states -/

theorem calm_inv : calm.Inv where
  parser := show 0 ≤ 1 by decide
  buffer := by decide
  arena := by decide
  queue := by decide
  timer := by decide
  expectedId := by decide

theorem waiting_inv (b : Bool) : (waiting b).Inv where
  parser := show 0 ≤ 1 by decide
  buffer := by cases b <;> decide
  arena := by cases b <;> decide
  queue := by cases b <;> decide
  timer := by cases b <;> decide
  expectedId := by cases b <;> decide

theorem crowded_inv : crowded.Inv where
  parser := show 0 ≤ 1 by decide
  buffer := by decide
  arena := by decide
  queue := by decide
  timer := by decide
  expectedId := by decide

theorem onePrefixByte_inv_zero : (onePrefixByte 0x00#8).Inv where
  parser := show 1 ≤ 1 by decide
  buffer := by decide
  arena := by decide
  queue := by decide
  timer := by decide
  expectedId := by decide

theorem onePrefixByte_inv_two : (onePrefixByte 0x02#8).Inv where
  parser := show 1 ≤ 1 by decide
  buffer := by decide
  arena := by decide
  queue := by decide
  timer := by decide
  expectedId := by decide

theorem inShortFrame_inv (n : Nat) (h : 2 ≤ n ∧ n < 5) : (inShortFrame n).Inv where
  parser := ⟨by decide, by decide, h.1, h.2, by show (0x00#8 ++ 0x05#8 : Half) = 5#16; decide⟩
  buffer := by show Memory.wf [(1, 0x05#8), (2, 0x81#8)]; decide
  arena := by show 1 ≤ 2; decide
  queue := calm_inv.queue
  timer := calm_inv.timer
  expectedId := calm_inv.expectedId

theorem inLongFrame_inv (n : Nat) (h : 2 ≤ n ∧ n < 512) : (inLongFrame n).Inv where
  parser := ⟨by decide, by decide, h.1, h.2, by show (0x02#8 ++ 0x00#8 : Half) = 512#16; decide⟩
  buffer := by show Memory.wf [(0, 0x02#8)]; decide
  arena := by show 1 ≤ 2; decide
  queue := calm_inv.queue
  timer := calm_inv.timer
  expectedId := calm_inv.expectedId

/-! Witnesses of the statements' hypotheses -/

/-- A valid 5-byte response with id 0x81 (vector OF-6 with its checksum right). -/
def shortFrame : List Byte := [0x00#8, 0x05#8, 0x81#8, 0x00#8, 0x86#8]

/-- A 512-byte frame of zeros, which the checksum accepts. -/
def longFrame : List Byte := List.replicate 512 0x00#8

theorem witness_StepRunsThePresentedOperation :
    (calm.withFetchWord 32 0x30000000).port = .command (zeroPortCommand 0x30000000#32) :: [] ∧
    ({ calm with port := [.direct .tick] } : State).port = .direct .tick :: [] := ⟨rfl, rfl⟩

theorem witness_NothingPresentedChangesNothing : calm.port = [] := rfl

theorem witness_DecodeOfEncodeIsTheInstruction_host :
    (Instr.send 0x01#7 (List.replicate 511 0x05#8) none).wellFormed = true ∧
    (Instr.send 0x01#7 (List.replicate 511 0x05#8) none).isHostOp = true ∧
    ∀ id payload timeout, Instr.send 0x01#7 (List.replicate 511 0x05#8) none = .send id payload timeout →
      payload.length ≤ 511 := by
  refine ⟨rfl, rfl, fun id payload timeout h => ?_⟩
  injection h with _ hp _
  rw [← hp, List.length_replicate]

theorem witness_DecodeOfEncodeIsTheInstruction_illegal :
    (Instr.illegal 0x10000100#32).wellFormed = true ∧ (Instr.illegal 0x10000100#32).isHostOp = true ∧
    ∀ id payload timeout, Instr.illegal 0x10000100#32 = .send id payload timeout → payload.length ≤ 511 :=
  ⟨by decide, rfl, (fun _ _ _ h => nomatch h)⟩

theorem witness_DecodeOfEncodeIsTheInstruction_internal : (Instr.checksum []).isHostOp = false := rfl

theorem witness_DecodeOfEncodeIsTheInstruction_long : 511 < (List.replicate 512 0x00#8 : List Byte).length := by
  rw [List.length_replicate]
  decide

theorem witness_ReservedHostWordsAreIllegal : decode (zeroPortCommand 0x10000100#32) = .illegal 0x10000100#32 := by
  decide

theorem witness_FeedByteStoresTheByte_first :
    calm.Inv ∧ ((calm.rxExp = none ∧ calm.rxCnt = 0) ∨ ∃ l, calm.rxExp = some l ∧ calm.rxCnt + 1 < l.toNat) :=
  ⟨calm_inv, .inl ⟨rfl, rfl⟩⟩

theorem witness_FeedByteStoresTheByte_body :
    (inLongFrame 510).Inv ∧
    (((inLongFrame 510).rxExp = none ∧ (inLongFrame 510).rxCnt = 0) ∨
      ∃ l, (inLongFrame 510).rxExp = some l ∧ (inLongFrame 510).rxCnt + 1 < l.toNat) :=
  ⟨inLongFrame_inv 510 (by decide), .inr ⟨512#16, rfl, by decide⟩⟩

theorem witness_LegalPrefixOpensABody_least :
    (onePrefixByte 0x00#8).Inv ∧ (onePrefixByte 0x00#8).rxExp = none ∧ (onePrefixByte 0x00#8).rxCnt = 1 ∧
    5 ≤ ((onePrefixByte 0x00#8).rxBuf.read 0).toNat * 256 + (0x05#8 : Byte).toNat ∧
    ((onePrefixByte 0x00#8).rxBuf.read 0).toNat * 256 + (0x05#8 : Byte).toNat ≤ 512 :=
  ⟨onePrefixByte_inv_zero, rfl, rfl, by decide, by decide⟩

theorem witness_LegalPrefixOpensABody_greatest :
    (onePrefixByte 0x02#8).Inv ∧ (onePrefixByte 0x02#8).rxExp = none ∧ (onePrefixByte 0x02#8).rxCnt = 1 ∧
    5 ≤ ((onePrefixByte 0x02#8).rxBuf.read 0).toNat * 256 + (0x00#8 : Byte).toNat ∧
    ((onePrefixByte 0x02#8).rxBuf.read 0).toNat * 256 + (0x00#8 : Byte).toNat ≤ 512 :=
  ⟨onePrefixByte_inv_two, rfl, rfl, by decide, by decide⟩

theorem witness_MalformedPrefixIsDropped_short :
    (onePrefixByte 0x00#8).Inv ∧ (onePrefixByte 0x00#8).rxExp = none ∧ (onePrefixByte 0x00#8).rxCnt = 1 ∧
    ((onePrefixByte 0x00#8).rxBuf.read 0).toNat * 256 + (0x04#8 : Byte).toNat ≤ 4 :=
  ⟨onePrefixByte_inv_zero, rfl, rfl, by decide⟩

theorem witness_MalformedPrefixIsDropped_long :
    (onePrefixByte 0x02#8).Inv ∧ (onePrefixByte 0x02#8).rxExp = none ∧ (onePrefixByte 0x02#8).rxCnt = 1 ∧
    513 ≤ ((onePrefixByte 0x02#8).rxBuf.read 0).toNat * 256 + (0x01#8 : Byte).toNat :=
  ⟨onePrefixByte_inv_two, rfl, rfl, by decide⟩

theorem witness_CompletedFrameGoesToOnFrame_least :
    (inShortFrame 4).Inv ∧ (inShortFrame 4).rxExp = some 5#16 ∧ (inShortFrame 4).rxCnt + 1 = (5#16 : Half).toNat :=
  ⟨inShortFrame_inv 4 (by decide), rfl, rfl⟩

theorem witness_CompletedFrameGoesToOnFrame_greatest :
    (inLongFrame 511).Inv ∧ (inLongFrame 511).rxExp = some 512#16 ∧
    (inLongFrame 511).rxCnt + 1 = (512#16 : Half).toNat :=
  ⟨inLongFrame_inv 511 (by decide), rfl, rfl⟩

theorem witness_ChunkBoundariesDoNotMatter : (inShortFrame 3).Inv := inShortFrame_inv 3 (by decide)

theorem witness_EncodedFrameParsesBack :
    calm.Inv ∧ calm.rxExp = none ∧ calm.rxCnt = 0 ∧
    1 ≤ (List.replicate 508 0x05#8 : List Byte).length ∧ (List.replicate 508 0x05#8 : List Byte).length ≤ 508 := by
  rw [List.length_replicate]
  exact ⟨calm_inv, rfl, rfl, by decide, by decide⟩

theorem witness_ChecksumDetectsEverySingleBitFlip_flip :
    5 ≤ shortFrame.length ∧ shortFrame.length ≤ 512 ∧ computedChecksum shortFrame = receivedChecksum shortFrame ∧
    4 < shortFrame.length ∧ 7 < 8 := by decide

theorem witness_ChecksumDetectsEverySingleBitFlip_flip_long :
    5 ≤ longFrame.length ∧ longFrame.length ≤ 512 ∧ computedChecksum longFrame = receivedChecksum longFrame ∧
    511 < longFrame.length ∧ 0 < 8 := by decide +kernel

theorem witness_ChecksumDetectsEverySingleBitFlip_sum :
    (([0x00#8, 0xAA#8] : List Byte).map BitVec.toNat).sum % 256 =
      (([0x01#8, 0xA9#8] : List Byte).map BitVec.toNat).sum % 256 ∧
    computedChecksum ([0x00#8, 0xAA#8] ++ [0xAA#8]) = receivedChecksum ([0x00#8, 0xAA#8] ++ [0xAA#8]) := by decide

theorem witness_EncodedFrameLayout : (List.replicate 508 0x05#8 : List Byte).length ≤ 508 := by
  rw [List.length_replicate]

theorem witness_OperandsOutsideTheirDomainStop :
    508 < (List.replicate 509 0x05#8 : List Byte).length ∧
    ((List.replicate 4 0x00#8 : List Byte).length < 5 ∨ 512 < (List.replicate 4 0x00#8 : List Byte).length) ∧
    ((List.replicate 513 0x00#8 : List Byte).length < 5 ∨ 512 < (List.replicate 513 0x00#8 : List Byte).length) ∧
    calm.slots.length ≤ 2 := by
  refine ⟨?_, .inl ?_, .inr ?_, by decide⟩ <;> rw [List.length_replicate] <;> decide

theorem witness_SendOfALongPayloadIsRejected : 508 < (List.replicate 509 0x05#8 : List Byte).length := by
  rw [List.length_replicate]
  decide

theorem witness_SendOnAFullQueueIsRejected :
    crowded.Inv ∧ (List.replicate 508 0x05#8 : List Byte).length ≤ 508 ∧
    ∀ k < crowded.slots.length, crowded.busyAt k = true :=
  ⟨crowded_inv, by rw [List.length_replicate], by decide⟩

theorem witness_AcceptedSendRegistersAndTransmits :
    (waiting true).Inv ∧ (List.replicate 508 0x05#8 : List Byte).length ≤ 508 ∧
    ∃ k < (waiting true).slots.length, (waiting true).busyAt k = false :=
  ⟨waiting_inv true, by rw [List.length_replicate], 1, by decide, by decide⟩

theorem witness_BadChecksumFrameIsDiscarded_least :
    4 ≤ ([0x00#8, 0x05#8, 0x81#8, 0x00#8] : List Byte).length ∧
    ([0x00#8, 0x05#8, 0x81#8, 0x00#8] : List Byte).length ≤ 511 ∧
    (([0x00#8, 0x05#8, 0x81#8, 0x00#8] : List Byte).map BitVec.toNat).sum % 256 ≠ (0x87#8 : Byte).toNat := by decide

theorem witness_BadChecksumFrameIsDiscarded_greatest :
    4 ≤ (List.replicate 511 0x00#8 : List Byte).length ∧ (List.replicate 511 0x00#8 : List Byte).length ≤ 511 ∧
    ((List.replicate 511 0x00#8 : List Byte).map BitVec.toNat).sum % 256 ≠ (0x01#8 : Byte).toNat := by decide +kernel

theorem witness_ValidFrameResolvesTheOldest_status :
    (waiting true).Inv ∧ 5 ≤ shortFrame.length ∧ shortFrame.length ≤ 512 ∧
    computedChecksum shortFrame = receivedChecksum shortFrame ∧ (waiting true).q = 0 :: [] ∧
    byteAt shortFrame 2 = 0x81#8 := ⟨waiting_inv true, by decide, by decide, by decide, rfl, rfl⟩

theorem witness_ValidFrameResolvesTheOldest_whole :
    crowded.Inv ∧ 5 ≤ shortFrame.length ∧ shortFrame.length ≤ 512 ∧
    computedChecksum shortFrame = receivedChecksum shortFrame ∧ crowded.q = 1 :: [0] ∧
    crowded.slots[1]?.map Slot.expId = some (byteAt shortFrame 2) :=
  ⟨crowded_inv, by decide, by decide, by decide, rfl, rfl⟩

theorem witness_ValidFrameResolvesTheOldest_mismatch :
    (waiting true).Inv ∧ 5 ≤ longFrame.length ∧ longFrame.length ≤ 512 ∧
    computedChecksum longFrame = receivedChecksum longFrame ∧ (waiting true).q = 0 :: [] ∧
    byteAt longFrame 2 ≠ 0x81#8 :=
  ⟨waiting_inv true, by decide +kernel, by decide +kernel, by decide +kernel, rfl, by decide +kernel⟩

theorem witness_UnmatchedFramesOnAnEmptyQueue_notification :
    5 ≤ ([0x00#8, 0x05#8, 0xE0#8, 0x00#8, 0xE5#8] : List Byte).length ∧
    ([0x00#8, 0x05#8, 0xE0#8, 0x00#8, 0xE5#8] : List Byte).length ≤ 512 ∧
    computedChecksum [0x00#8, 0x05#8, 0xE0#8, 0x00#8, 0xE5#8] =
      receivedChecksum [0x00#8, 0x05#8, 0xE0#8, 0x00#8, 0xE5#8] ∧
    calm.q = [] ∧ byteAt [0x00#8, 0x05#8, 0xE0#8, 0x00#8, 0xE5#8] 2 = 0xE0#8 := by decide

theorem witness_UnmatchedFramesOnAnEmptyQueue_orphan :
    5 ≤ longFrame.length ∧ longFrame.length ≤ 512 ∧ computedChecksum longFrame = receivedChecksum longFrame ∧
    calm.q = [] ∧ byteAt longFrame 2 ≠ 0xE0#8 := by decide +kernel

theorem witness_NoTelegramWhileACommandIsPending :
    (waiting true).Inv ∧ (waiting true).q ≠ [] ∧ ∃ t, exec (.onFrame shortFrame) (waiting true) = .next t :=
  ⟨waiting_inv true, by decide, _, rfl⟩

theorem witness_FramesResolveCommandsInSendOrder_different :
    calm.Inv ∧ calm.q = [] ∧ 2 ≤ calm.slots.length ∧ ([] : List Byte).length ≤ 508 ∧
    (List.replicate 508 0x05#8 : List Byte).length ≤ 508 ∧ 5 ≤ shortFrame.length ∧ shortFrame.length ≤ 512 ∧
    computedChecksum shortFrame = receivedChecksum shortFrame ∧
    (byteAt shortFrame 2).toNat = (0x01#7 : CommandId).toNat + 128 ∧ (0x02#7 : CommandId) ≠ 0x01#7 :=
  ⟨calm_inv, rfl, by decide, by decide, by rw [List.length_replicate], by decide, by decide, by decide, by decide,
    by decide⟩

theorem witness_FramesResolveCommandsInSendOrder_same :
    calm.Inv ∧ calm.q = [] ∧ 2 ≤ calm.slots.length ∧ ([] : List Byte).length ≤ 508 ∧
    5 ≤ shortFrame.length ∧ shortFrame.length ≤ 512 ∧ computedChecksum shortFrame = receivedChecksum shortFrame ∧
    (byteAt shortFrame 2).toNat = (0x01#7 : CommandId).toNat + 128 ∧ (0x01#7 : CommandId) = 0x01#7 :=
  ⟨calm_inv, rfl, by decide, by decide, by decide, by decide, by decide, by decide, rfl⟩

/-- One slot expires at the next tick and one does not. -/
theorem witness_TickExpiresReachedDeadlines :
    crowded.Inv ∧ 0 ∈ crowded.q ∧ crowded.expiredAt (crowded.now + 1#32) 0 = true ∧
    1 ∈ crowded.q ∧ crowded.expiredAt (crowded.now + 1#32) 1 = false :=
  ⟨crowded_inv, by decide, by decide, by decide, by decide⟩

theorem witness_ExpireRemovesItsSlot :
    (waiting true).Inv ∧ 0 < (waiting true).slots.length ∧ 1 < (waiting true).slots.length :=
  ⟨waiting_inv true, by decide, by decide⟩

/-- The state an accepted SEND of an empty payload leaves `calm` in. -/
def sent (timeout : Timeout) : State :=
  { calm with
    slots := [⟨true, 0x81#8, false, timeout.setWidth 32⟩, Slot.free]
    q := [0]
    out := [.sendAck 0, .tx [0x00#8, 0x04#8, 0x01#8, 0x05#8]] }

/-- Before its tick: a timeout of 0 and no tick yet, one short of max(0, 1). -/
theorem witness_TimeoutFiresOnItsTick_before :
    calm.Inv ∧ exec (.send 0x01#7 [] (some 0#31)) calm = .next (sent 0#31) ∧
    .sendAck 0 ∈ newEvents calm (sent 0#31) ∧
    (∀ i ∈ ([] : List Instr), i.isHostOp = true ∧ i ≠ .reset) ∧ runAll [] (sent 0#31) = .next (sent 0#31) ∧
    (∀ r, .result 0 r ∈ newEvents (sent 0#31) (sent 0#31) → r = .timeout) ∧
    ([] : List Instr).count .tick < max ((some 0#31 : Option Timeout).getD 3000#31).toNat 1 :=
  ⟨calm_inv, next_of_nextOf (by decide), by decide, (fun _ h => nomatch h), rfl, (fun _ h => nomatch h), by decide⟩

/-- On its tick: a timeout of 2 after one tick. -/
theorem witness_TimeoutFiresOnItsTick_on :
    calm.Inv ∧ exec (.send 0x01#7 [] (some 2#31)) calm = .next (sent 2#31) ∧
    .sendAck 0 ∈ newEvents calm (sent 2#31) ∧
    (∀ i ∈ [Instr.tick], i.isHostOp = true ∧ i ≠ .reset) ∧
    runAll [.tick] (sent 2#31) = .next { sent 2#31 with now := 1#32 } ∧
    (∀ r, .result 0 r ∈ newEvents (sent 2#31) { sent 2#31 with now := 1#32 } → r = .timeout) ∧
    [Instr.tick].count .tick + 1 = max ((some 2#31 : Option Timeout).getD 3000#31).toNat 1 :=
  ⟨calm_inv, next_of_nextOf (by decide), by decide, by decide, next_of_nextOf (by decide),
    (fun _ h => nomatch h), by decide⟩

theorem witness_ExactlyOneResultForEachAcceptance :
    crowded.Inv ∧ (∀ i ∈ [Instr.tick, .send 0x03#7 [] none], i.isHostOp = true ∧ i ≠ .reset) ∧
    ∃ t, runAll [.tick, .send 0x03#7 [] none] crowded = .next t :=
  ⟨crowded_inv, by decide, _, rfl⟩

theorem witness_EmptyResponsesAreNotReceived :
    calm.Inv ∧ calm.rxExp = none ∧ calm.rxCnt = 0 ∧ 0x80 ≤ (0x80#8 : Byte).toNat := ⟨calm_inv, rfl, rfl, by decide⟩

theorem witness_ShortNotificationHasNoTelegram :
    ([] : List Byte).length < 2 ∧ ([0x00#8] : List Byte).length < 2 := by decide

/-- All five fields, which take 15 bytes: an exact fit. -/
theorem witness_FlaggedFieldsAreReadInOrder :
    (0x800F#16 : Half) = (0x80#8 : Byte) ++ (0x0F#8 : Byte) ∧
    1 = (if (0x800F#16 : Half).getLsbD 15 then 1 else 0) ∧ 5 = 1 + (if (0x800F#16 : Half).getLsbD 3 then 4 else 0) ∧
    6 = 5 + (if (0x800F#16 : Half).getLsbD 2 then 1 else 0) ∧
    7 = 6 + (if (0x800F#16 : Half).getLsbD 1 then 1 else 0) ∧
    15 = 7 + (if (0x800F#16 : Half).getLsbD 0 then 8 else 0) ∧
    15 ≤ (List.replicate 15 0x11#8 : List Byte).length := by decide

/-- All five fields, one byte short. -/
theorem witness_TruncatedTelegramKeepsWhatFits :
    (0x800F#16 : Half) = (0x80#8 : Byte) ++ (0x0F#8 : Byte) ∧
    1 = (if (0x800F#16 : Half).getLsbD 15 then 1 else 0) ∧ 5 = 1 + (if (0x800F#16 : Half).getLsbD 3 then 4 else 0) ∧
    6 = 5 + (if (0x800F#16 : Half).getLsbD 2 then 1 else 0) ∧
    7 = 6 + (if (0x800F#16 : Half).getLsbD 1 then 1 else 0) ∧
    15 = 7 + (if (0x800F#16 : Half).getLsbD 0 then 8 else 0) ∧
    (List.replicate 14 0x11#8 : List Byte).length < 15 := by decide

theorem witness_ReservedMaskBitsAreIgnored :
    (0xFFFF#16 : Half) = (0xFF#8 : Byte) ++ (0xFF#8 : Byte) ∧ (0x801F#16 : Half) = (0x80#8 : Byte) ++ (0x1F#8 : Byte) ∧
    ∀ i ∈ [15, 4, 3, 2, 1, 0], (0xFFFF#16 : Half).getLsbD i = (0x801F#16 : Half).getLsbD i := by
  decide

theorem witness_ManufacturerCodeGroups : 6 ≤ (List.replicate 6 0x00#8 : List Byte).length := by decide

theorem witness_StatusTextOfCodes :
    8 ≤ (8#8 : Byte).toNat ∧ 8 ≤ (255#8 : Byte).toNat ∧
    (⟨true, 0x81#8, true, 50#32⟩ : Slot).expId = 0x81#8 ∧ (⟨true, 0x81#8, true, 50#32⟩ : Slot).statusExp = true := by
  decide

theorem witness_NoStepStopsOrBreaksTheInvariants :
    ({ waiting true with port := [.direct .tick] } : State).Inv where
  parser := (waiting_inv true).parser
  buffer := (waiting_inv true).buffer
  arena := (waiting_inv true).arena
  queue := (waiting_inv true).queue
  timer := (waiting_inv true).timer
  expectedId := (waiting_inv true).expectedId

theorem witness_EveryInstructionKeepsTheInvariants :
    (waiting true).Inv ∧ ∃ t, exec (.expire 0) (waiting true) = .next t := ⟨waiting_inv true, _, rfl⟩

/-- `calm` with other bytes in the buffer and in its free slots. -/
def calmStale : State :=
  { calm with rxBuf := [(7, 0x11#8)], slots := [⟨false, 0x99#8, true, 4#32⟩, Slot.free] }

theorem calmStale_inv : calmStale.Inv where
  parser := show 0 ≤ 1 by decide
  buffer := by decide
  arena := by decide
  queue := by decide
  timer := by decide
  expectedId := by decide

theorem witness_UnspecifiedStateIsUnobservable :
    calm.Inv ∧ calmStale.Inv ∧ calm.Agrees calmStale ∧ ∃ t, exec (.send 0x01#7 [] none) calm = .next t := by
  have hfree : ∀ k, calm.busyAt k = false ∧ calmStale.busyAt k = false := by
    intro k
    match k with
    | 0 => decide
    | 1 => decide
    | n + 2 => exact ⟨rfl, rfl⟩
  refine ⟨calm_inv, calmStale_inv, ⟨rfl, rfl, rfl, rfl, rfl, rfl, rfl, ?_, rfl, ?_, ?_⟩, _, rfl⟩
  · exact fun a h => absurd h (Nat.not_lt_zero a)
  · exact fun k => (hfree k).1.trans (hfree k).2.symm
  · intro k h
    rw [(hfree k).1] at h
    cases h

theorem witness_EventsAreOnlyAppended : ∃ t, exec (.send 0x01#7 [] none) calm = .next t := ⟨_, rfl⟩

theorem witness_EventsOfOneOperation :
    (waiting true).Inv ∧ 508 < (List.replicate 509 0x05#8 : List Byte).length ∧ ([] : List Byte).length ≤ 508 ∧
    5 ≤ ((inShortFrame 4).rxBuf.readFirst 5).length ∧ ((inShortFrame 4).rxBuf.readFirst 5).length ≤ 512 ∧
    computedChecksum ((inShortFrame 4).rxBuf.readFirst 5) ≠ receivedChecksum ((inShortFrame 4).rxBuf.readFirst 5) :=
  ⟨waiting_inv true, by rw [List.length_replicate]; decide, by decide, by decide, by decide, by decide⟩

theorem witness_OnlyTickMovesTime :
    (∃ t, exec .tick calm = .next t) ∧ (∃ t, exec .reset calm = .next t) ∧ ∃ t, exec (.expire 0) calm = .next t :=
  ⟨⟨_, rfl⟩, ⟨_, rfl⟩, ⟨_, rfl⟩⟩

theorem witness_OnlyFeedByteAndResetTouchTheParser :
    (∀ b, Instr.tick ≠ .feedByte b) ∧ Instr.tick ≠ .reset ∧ ∃ t, exec .tick (inShortFrame 3) = .next t :=
  ⟨(fun _ h => nomatch h), (fun h => nomatch h), _, rfl⟩

theorem witness_ArenaSizeAndPortAreFixed :
    (∃ t, exec .tick calm = .next t) ∧ (∀ bytes, Instr.tick ≠ .checksum bytes) ∧ ∀ id p, Instr.tick ≠ .encode id p :=
  ⟨⟨_, rfl⟩, (fun _ h => nomatch h), (fun _ _ h => nomatch h)⟩

theorem witness_QueueIsFullExactlyWhenNoSlotIsFree : crowded.Inv ∧ (waiting false).Inv :=
  ⟨crowded_inv, waiting_inv false⟩

end Sys2Proof.Tests
end

section
/-! O51. What no instruction changes: the number of slots (10_state.md R30) and the port; and `ret`, which CHECKSUM and
ENCODE alone write (log entry 3). -/

namespace Sys2Proof.Machine

/-- From `s` to `t` the number of slots, the port and `ret` stay. -/
structure State.KeepsSizePortRet (s t : State) : Prop where
  size : t.slots.length = s.slots.length
  port : t.port = s.port
  ret : t.ret = s.ret

theorem State.KeepsSizePortRet.trans {s t u : State} (h : s.KeepsSizePortRet t) (h' : t.KeepsSizePortRet u) :
    s.KeepsSizePortRet u :=
  ⟨h'.size.trans h.size, h'.port.trans h.port, h'.ret.trans h.ret⟩

/-- Emitting events writes `out` alone. -/
theorem State.emitAll_keepsSizePortRet (s : State) (es : List Event) : s.KeepsSizePortRet (s.emitAll es) :=
  ⟨rfl, rfl, rfl⟩

theorem bufferByte_keepsSizePortRet (b : Byte) (s : State) : s.KeepsSizePortRet (bufferByte b s) :=
  ⟨rfl, rfl, rfl⟩

theorem State.clearParser_keepsSizePortRet (s : State) : s.KeepsSizePortRet s.clearParser :=
  ⟨rfl, rfl, rfl⟩

theorem checkPrefix_keepsSizePortRet (s : State) : s.KeepsSizePortRet (checkPrefix s) := by
  rcases checkPrefix_cases s with ⟨_, heq⟩ | ⟨_, _, heq⟩
  · exact heq ▸ ⟨rfl, rfl, rfl⟩
  · exact heq ▸ ⟨rfl, rfl, rfl⟩

/-- Consuming the oldest expectation modifies one slot in place. -/
theorem resolveHead_keepsSizePortRet (f : List Byte) (k : Nat) (e : Slot) (rest : List Nat) (s : State) :
    s.KeepsSizePortRet (resolveHead f k e rest s) :=
  ⟨List.length_modify .., rfl, rfl⟩

theorem State.expire_keepsSizePortRet (s : State) (k : Nat) : s.KeepsSizePortRet (s.expire k) :=
  ⟨List.length_modify .., rfl, rfl⟩

/-- An accepted SEND sets one slot in place. -/
theorem execSend_keepsSizePortRet {id : CommandId} {p : List Byte} {tmo : Option Timeout} {s t : State}
    (h : execSend id p tmo s = .next t) : s.KeepsSizePortRet t := by
  rcases execSend_cases h with ⟨_, rfl⟩ | ⟨_, _, rfl⟩ | ⟨k, _, _, _, rfl⟩
  · exact ⟨rfl, rfl, rfl⟩
  · exact ⟨rfl, rfl, rfl⟩
  · exact ⟨List.length_set, rfl, rfl⟩

theorem onFrame_keepsSizePortRet {f : List Byte} {s t : State} (h : onFrame f s = .next t) :
    s.KeepsSizePortRet t := by
  obtain ⟨_, _, ⟨_, rfl⟩ | ⟨_, _, rfl⟩ | ⟨k, rest, e, _, _, _, rfl⟩⟩ := onFrame_cases h
  · exact s.emitAll_keepsSizePortRet _
  · obtain ⟨es, heq, _⟩ := dispatchUnsolicited_eq f s
    exact heq ▸ s.emitAll_keepsSizePortRet es
  · exact resolveHead_keepsSizePortRet f k e rest s

theorem execFeedByte_keepsSizePortRet {b : Byte} {s t : State} (h : execFeedByte b s = .next t) :
    s.KeepsSizePortRet t := by
  have hbuf := bufferByte_keepsSizePortRet b s
  obtain ⟨_, ⟨_, _, rfl⟩ | ⟨_, _, rfl⟩ | ⟨_, _, _, rfl⟩ | ⟨_, _, _, hframe⟩⟩ := execFeedByte_cases h
  · exact hbuf
  · exact hbuf.trans (checkPrefix_keepsSizePortRet _)
  · exact hbuf
  · exact (hbuf.trans (State.clearParser_keepsSizePortRet _)).trans (onFrame_keepsSizePortRet hframe)

theorem execTick_keepsSizePortRet {s t : State} (h : execTick s = .next t) : s.KeepsSizePortRet t := by
  obtain rfl := execTick_cases h
  obtain ⟨_, _, _, _, hport, hret, _⟩ := expireAll_spec s.q { s with now := s.now + 1#32 }
  exact ⟨length_expireAll .., hport, hret⟩

/-- RESET makes as many free slots as there were. -/
theorem execReset_keepsSizePortRet {s t : State} (h : execReset s = .next t) : s.KeepsSizePortRet t := by
  obtain rfl := next_inj h
  exact ⟨List.length_replicate, rfl, rfl⟩

theorem execExpire_keepsSizePortRet {k : Nat} {s t : State} (h : execExpire k s = .next t) :
    s.KeepsSizePortRet t := by
  obtain ⟨_, rfl⟩ := execExpire_cases h
  exact s.expire_keepsSizePortRet k

/-- Every instruction but CHECKSUM and ENCODE keeps the number of slots, the port and `ret`. -/
theorem exec_keepsSizePortRet {i : Instr} {s t : State} (h : exec i s = .next t)
    (hsum : ∀ bytes, i ≠ .checksum bytes) (henc : ∀ id p, i ≠ .encode id p) : s.KeepsSizePortRet t := by
  cases i with
  | feedByte b => exact execFeedByte_keepsSizePortRet h
  | send id p tmo => exact execSend_keepsSizePortRet h
  | tick => exact execTick_keepsSizePortRet h
  | reset => exact execReset_keepsSizePortRet h
  | illegal w => exact next_inj h ▸ s.emitAll_keepsSizePortRet _
  | checksum bytes => exact absurd rfl (hsum bytes)
  | encode id p => exact absurd rfl (henc id p)
  | onFrame f => exact onFrame_keepsSizePortRet h
  | expire k => exact execExpire_keepsSizePortRet h
  | decodeTelegram p => exact next_inj h ▸ s.emitAll_keepsSizePortRet _

/-- CHECKSUM and ENCODE write `ret` and nothing else (40_frame_codec.md R100, R101). -/
theorem exec_writes_ret_only {i : Instr} {s t : State} (h : exec i s = .next t)
    (hi : (∃ bytes, i = .checksum bytes) ∨ ∃ id p, i = .encode id p) : ∃ r, t = { s with ret := r } := by
  rcases hi with ⟨bytes, rfl⟩ | ⟨id, p, rfl⟩
  · exact ⟨_, next_inj h⟩
  · exact ⟨_, (execEncode_cases h).2⟩

/-- Settles O51: an instruction is one of the two that write `ret` alone, or keeps all three fields. -/
theorem arenaSizeAndPortAreFixed : Obligations.ArenaSizeAndPortAreFixed := by
  intro i s t h
  by_cases hi : (∃ bytes, i = .checksum bytes) ∨ ∃ id p, i = .encode id p
  · obtain ⟨r, rfl⟩ := exec_writes_ret_only h hi
    refine ⟨rfl, rfl, fun hsum henc => ?_⟩
    rcases hi with ⟨bytes, rfl⟩ | ⟨id, p, rfl⟩
    · exact absurd rfl (hsum bytes)
    · exact absurd rfl (henc id p)
  · obtain ⟨hsum, henc⟩ := not_or.1 hi
    have hkeep := exec_keepsSizePortRet h (fun bytes hb => hsum ⟨bytes, hb⟩) (fun id p hp => henc ⟨id, p, hp⟩)
    exact ⟨hkeep.size, hkeep.port, fun _ _ => hkeep.ret⟩

end Sys2Proof.Machine
end

section
/-! O52. A full queue and a fully busy arena are one condition (10_state.md R26, R27). -/

namespace Sys2Proof.Machine

/-- Where the queue has an entry for every slot, every slot number is in it. -/
theorem State.mem_q_of_full {s : State} (h : s.QueueInv) (hfull : s.q.length = s.slots.length) {k : Nat}
    (hk : k < s.slots.length) : k ∈ s.q := by
  have hsub : s.q ⊆ List.range s.slots.length := fun j hj => List.mem_range.2 (slots_lt_of_queueInv h j hj)
  have hperm : s.q.Perm (List.range s.slots.length) :=
    (List.subperm_of_subset h.1 hsub).perm_of_length_le (by rw [List.length_range, hfull])
  exact hperm.mem_iff.2 (List.mem_range.2 hk)

/-- Settles O52: a full queue names every slot, and a queue that is not full leaves a free one. -/
theorem queueIsFullExactlyWhenNoSlotIsFree : Obligations.QueueIsFullExactlyWhenNoSlotIsFree := by
  intro s h
  refine ⟨State.length_q_le h.queue, fun hfull k hk => ?_, fun hbusy => ?_⟩
  · exact (State.mem_q_iff h.queue k).1 (State.mem_q_of_full h.queue hfull hk)
  · by_contra hne
    obtain ⟨k, hfree⟩ := State.leastFree_isSome h.queue hne
    obtain ⟨hk, hidle, _⟩ := State.leastFree_some hfree
    exact Bool.false_ne_true (hidle.symm.trans (hbusy k hk))

end Sys2Proof.Machine
end

section
/-! O49. TICK and RESET write `now`, and nothing else does (10_state.md R25). -/

namespace Sys2Proof.Machine

theorem checkPrefix_now (s : State) : (checkPrefix s).now = s.now := by
  rcases checkPrefix_cases s with ⟨_, heq⟩ | ⟨_, _, heq⟩
  · rw [heq, State.raise_now]
  · rw [heq]

theorem execSend_now {id : CommandId} {p : List Byte} {tmo : Option Timeout} {s t : State}
    (h : execSend id p tmo s = .next t) : t.now = s.now := by
  rcases execSend_cases h with ⟨_, rfl⟩ | ⟨_, _, rfl⟩ | ⟨k, _, _, _, rfl⟩
  · rfl
  · rfl
  · rfl

theorem onFrame_now {f : List Byte} {s t : State} (h : onFrame f s = .next t) : t.now = s.now := by
  obtain ⟨_, _, ⟨_, rfl⟩ | ⟨_, _, rfl⟩ | ⟨k, rest, e, _, _, _, rfl⟩⟩ := onFrame_cases h
  · rfl
  · obtain ⟨es, heq, _⟩ := dispatchUnsolicited_eq f s
    rw [heq, State.emitAll_now]
  · rw [resolveHead_eq]

theorem execFeedByte_now {b : Byte} {s t : State} (h : execFeedByte b s = .next t) : t.now = s.now := by
  obtain ⟨_, ⟨_, _, rfl⟩ | ⟨_, _, rfl⟩ | ⟨_, _, _, rfl⟩ | ⟨_, _, _, hframe⟩⟩ := execFeedByte_cases h
  · rfl
  · exact checkPrefix_now _
  · rfl
  · have hnow := onFrame_now hframe
    exact hnow

/-- TICK's loop reads the advanced time and leaves it. -/
theorem execTick_now {s t : State} (h : execTick s = .next t) : t.now = s.now + 1#32 := by
  obtain rfl := execTick_cases h
  obtain ⟨_, _, _, hnow, _⟩ := expireAll_spec s.q { s with now := s.now + 1#32 }
  exact hnow

/-- Every instruction but TICK and RESET leaves the time as it is. -/
theorem exec_now {i : Instr} {s t : State} (h : exec i s = .next t) (htick : i ≠ .tick) (hreset : i ≠ .reset) :
    t.now = s.now := by
  cases i with
  | feedByte b => exact execFeedByte_now h
  | send id p tmo => exact execSend_now h
  | tick => exact absurd rfl htick
  | reset => exact absurd rfl hreset
  | illegal w => rw [next_inj h, State.raise_now]
  | checksum bytes => rw [next_inj h]
  | encode id p => rw [(execEncode_cases h).2]
  | onFrame f => exact onFrame_now h
  | expire k => rw [(execExpire_cases h).2, State.expire_now]
  | decodeTelegram p => rw [next_inj h, decodeTelegram_now]

/-- Settles O49: TICK, RESET and the rest, one after the other. -/
theorem onlyTickMovesTime : Obligations.OnlyTickMovesTime := by
  intro i s t h
  by_cases htick : i = .tick
  · subst htick
    exact .inl ⟨rfl, execTick_now h⟩
  by_cases hreset : i = .reset
  · subst hreset
    exact .inr (.inl ⟨rfl, by rw [next_inj h]⟩)
  · exact .inr (.inr ⟨htick, hreset, exec_now h htick hreset⟩)

end Sys2Proof.Machine
end

section
/-! O44. Every instruction keeps the invariants (10_state.md R24, R27, R28, 41_transaction.md R131), and under them every
host-port operation answers a next state (10_state.md R36). -/

namespace Sys2Proof.Machine

theorem State.queueInv_iff (s : State) : s.QueueInv ↔ s.q.Nodup ∧ ∀ k, k ∈ s.q ↔ s.busyAt k = true :=
  ⟨fun h => ⟨h.1, State.mem_q_iff h⟩, fun h => ⟨h.1, fun k => (h.2 k).1, fun k _ => (h.2 k).2⟩⟩

theorem State.parserInv_of_none {s : State} (hexp : s.rxExp = none) : s.ParserInv ↔ s.rxCnt ≤ 1 := by
  rw [State.ParserInv, hexp]

theorem State.parserInv_of_some {s : State} {l : Half} (hexp : s.rxExp = some l) :
    s.ParserInv ↔ 5 ≤ l.toNat ∧ l.toNat ≤ 512 ∧ 2 ≤ s.rxCnt ∧ s.rxCnt < l.toNat ∧
      s.rxBuf.read 0 ++ s.rxBuf.read 1 = l := by
  rw [State.ParserInv, hexp]

/-! What the invariants do not speak of -/

/-- The invariants say nothing of the port, the events or `ret`. -/
theorem State.Inv.withInterface {s : State} (h : s.Inv) (port : List PortEntry) (out : List Event) (ret : Returned) :
    ({ s with port := port, out := out, ret := ret } : State).Inv :=
  ⟨h.parser, h.buffer, h.arena, h.queue, h.timer, h.expectedId⟩

theorem State.Inv.emitAll {s : State} (h : s.Inv) (es : List Event) : (s.emitAll es).Inv := h.withInterface _ _ _

theorem State.Inv.emit {s : State} (h : s.Inv) (e : Event) : (s.emit e).Inv := h.withInterface _ _ _

/-! The Parser State -/

/-- A state that differs from one under the invariants in the parser and the events alone has only the parser's own
invariants to meet. -/
theorem State.Inv.of_parser {s : State} (h : s.Inv) {buf : Memory} {cnt : Nat} {exp : Option Half} {out : List Event}
    (hparser : ({ s with rxBuf := buf, rxCnt := cnt, rxExp := exp, out := out } : State).ParserInv)
    (hbuf : buf.wf) : ({ s with rxBuf := buf, rxCnt := cnt, rxExp := exp, out := out } : State).Inv :=
  ⟨hparser, hbuf, h.arena, h.queue, h.timer, h.expectedId⟩

/-- The first byte of the length field is awaited or held; the bytes of the body leave the length field as it was. -/
theorem bufferByte_inv {b : Byte} {s : State} (h : s.Inv) (hcnt : s.rxCnt < 512)
    (hnone : s.rxExp = none → s.rxCnt ≠ 1) (hsome : ∀ l, s.rxExp = some l → s.rxCnt + 1 ≠ l.toNat) :
    (bufferByte b s).Inv := by
  refine h.of_parser (out := s.out) ?_ (Memory.write_wf _ _ _ h.buffer hcnt)
  show (bufferByte b s).ParserInv
  cases hexp : s.rxExp with
  | none =>
    have hle := (State.parserInv_of_none hexp).1 h.parser
    have hne := hnone hexp
    rw [State.parserInv_of_none ((bufferByte_rxExp b s).trans hexp), bufferByte_rxCnt]
    omega
  | some l =>
    obtain ⟨h5, h512, h2, hlt, hpre⟩ := (State.parserInv_of_some hexp).1 h.parser
    have hne := hsome l hexp
    rw [State.parserInv_of_some ((bufferByte_rxExp b s).trans hexp), bufferByte_rxCnt, bufferByte_rxBuf,
      Memory.read_write_other _ _ _ _ (by omega), Memory.read_write_other _ _ _ _ (by omega)]
    exact ⟨h5, h512, by omega, by omega, hpre⟩

/-- The second byte of the length field: both are dropped, or they are a legal length. -/
theorem checkPrefix_bufferByte_inv {b : Byte} {s : State} (h : s.Inv) (hcnt : s.rxCnt = 1) (hexp : s.rxExp = none) :
    (checkPrefix (bufferByte b s)).Inv := by
  have hbuf : (bufferByte b s).rxBuf.wf := Memory.write_wf _ _ _ h.buffer (by rw [hcnt]; decide)
  rcases checkPrefix_cases (bufferByte b s) with ⟨_, heq⟩ | ⟨h5, h512, heq⟩
  · rw [heq]
    have hparser := (State.parserInv_of_none (s := { bufferByte b s with rxCnt := 0 }) hexp).2 (Nat.zero_le 1)
    exact h.of_parser hparser hbuf
  · rw [heq]
    refine h.of_parser (out := s.out) ((State.parserInv_of_some rfl).2 ⟨h5, h512, ?_, ?_, rfl⟩) hbuf
    · show 2 ≤ s.rxCnt + 1
      omega
    · exact Nat.lt_of_lt_of_le (show s.rxCnt + 1 < 5 by omega) h5

theorem clearParser_bufferByte_inv {b : Byte} {s : State} (h : s.Inv) (hcnt : s.rxCnt < 512) :
    (bufferByte b s).clearParser.Inv :=
  h.of_parser (out := s.out) ((State.parserInv_of_none rfl).2 (Nat.zero_le 1))
    (Memory.write_wf _ _ _ h.buffer hcnt)

/-! Releasing slots: what EXPIRE, TICK's loop and a valid frame do to the arena and the queue -/

/-- From `s` to `t` some pending slots are released: they leave the queue and the busy slots together, the others keep
their fields and their order, and the parser stays. -/
structure State.Releases (s t : State) : Prop where
  rxBuf : t.rxBuf = s.rxBuf
  rxCnt : t.rxCnt = s.rxCnt
  rxExp : t.rxExp = s.rxExp
  size : t.slots.length = s.slots.length
  q : t.q.Sublist s.q
  mem : ∀ k ∈ s.q, k ∈ t.q ↔ t.busyAt k = true
  slots : ∀ k, t.busyAt k = true → t.slots[k]? = s.slots[k]?

/-- A slot still busy was busy. -/
theorem State.Releases.busyAt {s t : State} (h : s.Releases t) {k : Nat} (hk : t.busyAt k = true) :
    s.busyAt k = true :=
  (State.busyAt_congr (h.slots k hk)).symm.trans hk

theorem State.Releases.refl {s : State} (h : s.QueueInv) : s.Releases s :=
  ⟨rfl, rfl, rfl, rfl, List.Sublist.refl _, fun k _ => State.mem_q_iff h k, fun _ _ => rfl⟩

theorem State.Releases.trans {s t u : State} (h : s.Releases t) (h' : t.Releases u) : s.Releases u where
  rxBuf := h'.rxBuf.trans h.rxBuf
  rxCnt := h'.rxCnt.trans h.rxCnt
  rxExp := h'.rxExp.trans h.rxExp
  size := h'.size.trans h.size
  q := h'.q.trans h.q
  mem k hk := by
    constructor
    · intro hu
      exact (h'.mem k (h'.q.subset hu)).1 hu
    · intro hu
      exact (h'.mem k ((h.mem k hk).2 (h'.busyAt hu))).2 hu
  slots k hk := (h'.slots k hk).trans (h.slots k (h'.busyAt hk))

theorem State.Releases.queueInv {s t : State} (h : s.Releases t) (hs : s.QueueInv) : t.QueueInv := by
  refine t.queueInv_iff.2 ⟨h.q.nodup hs.1, fun k => ?_⟩
  constructor
  · intro hk
    exact (h.mem k (h.q.subset hk)).1 hk
  · intro hk
    exact (h.mem k ((State.mem_q_iff hs k).2 (h.busyAt hk))).2 hk

/-- A busy slot left by a release stood in the arena before. -/
theorem State.Releases.mem_slots {s t : State} (h : s.Releases t) {e : Slot} (he : e ∈ t.slots)
    (hbusy : e.busy = true) : e ∈ s.slots := by
  obtain ⟨k, hk⟩ := List.mem_iff_getElem?.1 he
  have hsame := h.slots k ((t.busyAt_iff k).2 ⟨e, hk, hbusy⟩)
  exact List.mem_iff_getElem?.2 ⟨k, hsame.symm.trans hk⟩

/-- A release keeps every invariant but the one about time, which is left to show. -/
theorem State.Releases.inv {s t : State} (h : s.Releases t) (hs : s.Inv) (htimer : t.TimerInv) : t.Inv where
  parser := by
    have hparser := hs.parser
    rw [State.ParserInv, ← h.rxExp, ← h.rxCnt, ← h.rxBuf] at hparser
    exact hparser
  buffer := h.rxBuf ▸ hs.buffer
  arena := h.size ▸ hs.arena
  queue := h.queueInv hs.queue
  timer := htimer
  expectedId _ he hbusy := hs.expectedId _ (h.mem_slots he hbusy) hbusy

/-- A release at one time keeps the deadlines. -/
theorem State.Releases.inv_of_now {s t : State} (h : s.Releases t) (hs : s.Inv) (hnow : t.now = s.now) : t.Inv :=
  h.inv hs (fun e he hbusy => hnow ▸ hs.timer e (h.mem_slots he hbusy) hbusy)

/-- EXPIRE releases its slot, pending or not. -/
theorem State.expire_releases {s : State} (h : s.QueueInv) (k : Nat) : s.Releases (s.expire k) where
  rxBuf := rfl
  rxCnt := rfl
  rxExp := rfl
  size := List.length_modify ..
  q := List.filter_sublist
  mem j hj := by simp [hj, (State.mem_q_iff h j).1 hj]
  slots j hj := by
    rw [State.busyAt_expire, Bool.and_eq_true, bne_iff_ne] at hj
    obtain ⟨_, hne⟩ := hj
    simp [hne.symm]

theorem expireAll_releases {s : State} (h : s.QueueInv) (ks : List Nat) : s.Releases (expireAll ks s) := by
  induction ks generalizing s with
  | nil => exact State.Releases.refl h
  | cons k ks ih =>
    rw [expireAll_cons]
    split
    · have hone := State.expire_releases h k
      exact hone.trans (ih (hone.queueInv h))
    · exact ih h

/-- Consuming the oldest expectation leaves the state EXPIRE of its slot would, but for the event. -/
theorem resolveHead_eq_expire {f : List Byte} {k : Nat} {e : Slot} {rest : List Nat} {s : State}
    (h : s.QueueInv) (hq : s.q = k :: rest) :
    resolveHead f k e rest s =
      { s.expire k with out := s.out ++ [.result k (resultFor e (byteAt f 2) (framePayload f))] } := by
  have hnodup := h.1
  rw [hq, List.nodup_cons] at hnodup
  have hrest : s.q.filter (fun j => j != k) = rest := by
    rw [hq, List.filter_cons_of_neg (by simp), List.filter_eq_self]
    intro j hj
    exact bne_iff_ne.2 (fun hjk => hnodup.1 (hjk ▸ hj))
  rw [resolveHead_eq, ← hrest]
  rfl

/-! Time -/

/-- The wait a SEND registers is its timeout, below `2^31`. -/
theorem remainingTicks_deadlineOf (now : Time) (ticks : Timeout) : remainingTicks now (deadlineOf now ticks) < 2 ^ 31 := by
  have hticks := ticks.isLt
  unfold remainingTicks deadlineOf
  bv_omega

/-- A tick that does not reach the deadline shortens the wait. -/
theorem remainingTicks_tick {now deadline : Time} (h : remainingTicks now deadline < 2 ^ 31)
    (hrun : isExpired (now + 1#32) deadline = false) : remainingTicks (now + 1#32) deadline < 2 ^ 31 := by
  unfold remainingTicks at h ⊢
  rw [isExpired, decide_eq_false_iff_not] at hrun
  bv_omega

/-- TICK's loop over the whole queue leaves no expired slot in it. -/
theorem not_expired_of_mem_expireAll {s : State} {k : Nat} (hk : k ∈ (expireAll s.q s).q) :
    s.expiredAt s.now k = false := by
  obtain ⟨_, _, _, _, _, _, hq, _⟩ := expireAll_spec s.q s
  rw [hq, List.mem_filter] at hk
  simpa [hk.1] using hk.2

/-- After TICK a busy slot is one whose deadline the new time has not reached. -/
theorem tick_inv {s : State} (h : s.Inv) : (expireAll s.q { s with now := s.now + 1#32 }).Inv := by
  obtain ⟨_, _, _, hnow, _⟩ := expireAll_spec s.q { s with now := s.now + 1#32 }
  have hrel := expireAll_releases (s := { s with now := s.now + 1#32 }) h.queue s.q
  have hfrom : s.Releases (expireAll s.q { s with now := s.now + 1#32 }) := { hrel with }
  refine hfrom.inv h (fun e he hbusy => ?_)
  obtain ⟨k, hk⟩ := List.mem_iff_getElem?.1 he
  have hkbusy := (State.busyAt_iff _ k).2 ⟨e, hk, hbusy⟩
  have hpending := (State.mem_q_iff (hfrom.queueInv h.queue) k).2 hkbusy
  have hwait := not_expired_of_mem_expireAll (s := { s with now := s.now + 1#32 }) hpending
  have hslot : s.slots[k]? = some e := (hfrom.slots k hkbusy).symm.trans hk
  have hrun : isExpired (s.now + 1#32) e.deadline = false := by simpa [State.expiredAt, hslot] using hwait
  rw [hnow]
  exact remainingTicks_tick (h.timer e (hfrom.mem_slots he hbusy) hbusy) hrun

/-! Registering -/

/-- Slot `k` is as busy as what was put there, the others as before. -/
theorem State.busyAt_register {s : State} {k : Nat} (hk : k < s.slots.length) (e : Slot) (j : Nat) :
    (s.register k e).busyAt j = if j = k then e.busy else s.busyAt j := by
  unfold State.busyAt
  rw [State.register_slots, List.getElem?_set]
  by_cases hjk : k = j
  · subst hjk
    simp [hk]
  · simp [hjk, Ne.symm hjk]

theorem State.queueInv_register {s : State} (h : s.QueueInv) {k : Nat} {e : Slot} (hk : k < s.slots.length)
    (hfree : s.busyAt k = false) (hbusy : e.busy = true) : (s.register k e).QueueInv := by
  have hnotin : k ∉ s.q := fun hmem => Bool.false_ne_true (hfree.symm.trans ((State.mem_q_iff h k).1 hmem))
  rw [State.queueInv_iff, State.register_q]
  refine ⟨List.concat_eq_append ▸ h.1.concat hnotin, fun j => ?_⟩
  rw [State.busyAt_register hk, List.mem_append, List.mem_singleton, State.mem_q_iff h j]
  by_cases hjk : j = k <;> simp [hjk, hbusy]

/-- A free slot may take an expectation whose id and deadline are in range. -/
theorem State.Inv.register {s : State} (h : s.Inv) {k : Nat} {e : Slot} (hk : k < s.slots.length)
    (hfree : s.busyAt k = false) (hbusy : e.busy = true) (htimer : remainingTicks s.now e.deadline < 2 ^ 31)
    (hid : 0x80 ≤ e.expId.toNat) : (s.register k e).Inv where
  parser := h.parser
  buffer := h.buffer
  arena := by rw [State.register_slots, List.length_set]; exact h.arena
  queue := State.queueInv_register h.queue hk hfree hbusy
  timer e' he' hbusy' := by
    rcases List.mem_or_eq_of_mem_set he' with hold | rfl
    · exact h.timer e' hold hbusy'
    · exact htimer
  expectedId e' he' hbusy' := by
    rcases List.mem_or_eq_of_mem_set he' with hold | rfl
    · exact h.expectedId e' hold hbusy'
    · exact hid

/-! Every instruction -/

theorem execSend_inv {id : CommandId} {p : List Byte} {tmo : Option Timeout} {s t : State} (hs : s.Inv)
    (h : execSend id p tmo s = .next t) : t.Inv := by
  rcases execSend_cases h with ⟨_, rfl⟩ | ⟨_, _, rfl⟩ | ⟨k, _, _, hleast, rfl⟩
  · exact hs.emit _
  · exact hs.emit _
  · obtain ⟨hk, hfree, _⟩ := State.leastFree_some hleast
    have hid : 0x80 ≤ (responseId id).toNat := by
      rw [toNat_responseId]
      omega
    exact ((hs.register hk hfree rfl (remainingTicks_deadlineOf _ _) hid).emit _).emit _

theorem onFrame_inv {f : List Byte} {s t : State} (hs : s.Inv) (h : onFrame f s = .next t) : t.Inv := by
  obtain ⟨_, _, ⟨_, rfl⟩ | ⟨_, _, rfl⟩ | ⟨k, rest, e, _, hq, _, rfl⟩⟩ := onFrame_cases h
  · exact hs.emit _
  · obtain ⟨es, heq, _⟩ := dispatchUnsolicited_eq f s
    exact heq ▸ hs.emitAll es
  · have hexpired := (State.expire_releases hs.queue k).inv_of_now hs rfl
    rw [resolveHead_eq_expire hs.queue hq]
    exact hexpired.withInterface _ _ _

theorem execFeedByte_inv {b : Byte} {s t : State} (hs : s.Inv) (h : execFeedByte b s = .next t) : t.Inv := by
  obtain ⟨hcnt, ⟨hexp, hne, rfl⟩ | ⟨hexp, hone, rfl⟩ | ⟨l, hexp, hne, rfl⟩ | ⟨l, _, _, hframe⟩⟩ :=
    execFeedByte_cases h
  · exact bufferByte_inv hs hcnt (fun _ => hne) (fun l hl => nomatch hexp.symm.trans hl)
  · exact checkPrefix_bufferByte_inv hs hone hexp
  · exact bufferByte_inv hs hcnt (fun hn => nomatch hexp.symm.trans hn)
      (fun l' hl' => Option.some.inj (hexp.symm.trans hl') ▸ hne)
  · exact onFrame_inv (clearParser_bufferByte_inv hs hcnt) hframe

/-- RESET leaves free slots, an empty queue and an empty parser. -/
theorem execReset_inv {s t : State} (hs : s.Inv) (h : execReset s = .next t) : t.Inv := by
  obtain rfl := next_inj h
  have hidle : ∀ e ∈ List.replicate s.slots.length Slot.free, e.busy ≠ true :=
    fun e he => List.eq_of_mem_replicate he ▸ Bool.false_ne_true
  refine ⟨Nat.zero_le 1, reset_rxBuf_wf, ?_, ⟨List.nodup_nil, (fun _ hk => nomatch hk), fun k _ hk => ?_⟩,
    fun e he hbusy => absurd hbusy (hidle e he), fun e he hbusy => absurd hbusy (hidle e he)⟩
  · exact List.length_replicate ▸ hs.arena
  · obtain ⟨e, he, hbusy⟩ := (State.busyAt_iff _ k).1 hk
    exact absurd hbusy (hidle e (List.mem_of_getElem? he))

/-- Every instruction that answers a next state keeps the invariants. -/
theorem exec_inv {i : Instr} {s t : State} (hs : s.Inv) (h : exec i s = .next t) : t.Inv := by
  cases i with
  | feedByte b => exact execFeedByte_inv hs h
  | send id p tmo => exact execSend_inv hs h
  | tick => exact execTick_cases h ▸ tick_inv hs
  | reset => exact execReset_inv hs h
  | illegal w => exact next_inj h ▸ hs.emit _
  | checksum bytes => exact next_inj h ▸ hs.withInterface _ _ _
  | encode id p => exact (execEncode_cases h).2 ▸ hs.withInterface _ _ _
  | onFrame f => exact onFrame_inv hs h
  | expire k => exact (execExpire_cases h).2 ▸ (State.expire_releases hs.queue k).inv_of_now hs rfl
  | decodeTelegram p => exact next_inj h ▸ hs.emitAll _

/-! The order of the queue -/

/-- The queue grows by one slot at its tail, or becomes a sublist of itself. -/
abbrev State.KeepsQueueOrder (s t : State) : Prop := (∃ k, t.q = s.q ++ [k]) ∨ t.q.Sublist s.q

/-- A queue that stays is a sublist of itself. -/
theorem State.KeepsQueueOrder.of_eq {s t : State} (h : t.q = s.q) : s.KeepsQueueOrder t :=
  .inr (h ▸ List.Sublist.refl _)

theorem execSend_keepsQueueOrder {id : CommandId} {p : List Byte} {tmo : Option Timeout} {s t : State}
    (h : execSend id p tmo s = .next t) : s.KeepsQueueOrder t := by
  rcases execSend_cases h with ⟨_, rfl⟩ | ⟨_, _, rfl⟩ | ⟨k, _, _, _, rfl⟩
  · exact .of_eq rfl
  · exact .of_eq rfl
  · exact .inl ⟨k, rfl⟩

theorem onFrame_keepsQueueOrder {f : List Byte} {s t : State} (h : onFrame f s = .next t) :
    s.KeepsQueueOrder t := by
  obtain ⟨_, _, ⟨_, rfl⟩ | ⟨_, _, rfl⟩ | ⟨k, rest, e, _, hq, _, rfl⟩⟩ := onFrame_cases h
  · exact .of_eq rfl
  · obtain ⟨es, heq, _⟩ := dispatchUnsolicited_eq f s
    exact .of_eq (heq ▸ rfl)
  · exact .inr (hq ▸ List.sublist_cons_self k rest)

theorem checkPrefix_q (s : State) : (checkPrefix s).q = s.q := by
  rcases checkPrefix_cases s with ⟨_, heq⟩ | ⟨_, _, heq⟩
  · rw [heq, State.raise_q]
  · rw [heq]

theorem execFeedByte_keepsQueueOrder {b : Byte} {s t : State} (h : execFeedByte b s = .next t) :
    s.KeepsQueueOrder t := by
  obtain ⟨_, ⟨_, _, rfl⟩ | ⟨_, _, rfl⟩ | ⟨_, _, _, rfl⟩ | ⟨_, _, _, hframe⟩⟩ := execFeedByte_cases h
  · exact .of_eq rfl
  · exact .of_eq (checkPrefix_q _)
  · exact .of_eq rfl
  · have horder := onFrame_keepsQueueOrder hframe
    exact horder

theorem execTick_keepsQueueOrder {s t : State} (h : execTick s = .next t) : s.KeepsQueueOrder t := by
  obtain rfl := execTick_cases h
  obtain ⟨_, _, _, _, _, _, hq, _⟩ := expireAll_spec s.q { s with now := s.now + 1#32 }
  exact .inr (hq ▸ List.filter_sublist)

theorem exec_keepsQueueOrder {i : Instr} {s t : State} (h : exec i s = .next t) : s.KeepsQueueOrder t := by
  cases i with
  | feedByte b => exact execFeedByte_keepsQueueOrder h
  | send id p tmo => exact execSend_keepsQueueOrder h
  | tick => exact execTick_keepsQueueOrder h
  | reset => exact next_inj h ▸ .inr (List.nil_sublist _)
  | illegal w => exact .of_eq (next_inj h ▸ rfl)
  | checksum bytes => exact .of_eq (next_inj h ▸ rfl)
  | encode id p => exact .of_eq ((execEncode_cases h).2 ▸ rfl)
  | onFrame f => exact onFrame_keepsQueueOrder h
  | expire k => exact (execExpire_cases h).2 ▸ .inr List.filter_sublist
  | decodeTelegram p => exact .of_eq (next_inj h ▸ rfl)

/-! Progress -/

/-- Under the invariants the buffer has room, and a completed frame is of legal length. -/
theorem execFeedByte_isNext {s : State} (h : s.Inv) (b : Byte) : ∃ t, execFeedByte b s = .next t := by
  unfold execFeedByte
  cases hexp : s.rxExp with
  | none =>
    have hle := (State.parserInv_of_none hexp).1 h.parser
    rw [if_pos (show s.rxCnt < 512 by omega)]
    dsimp only
    split
    · exact ⟨_, rfl⟩
    · exact ⟨_, rfl⟩
  | some l =>
    obtain ⟨h5, h512, _, hlt, _⟩ := (State.parserInv_of_some hexp).1 h.parser
    rw [if_pos (show s.rxCnt < 512 by omega)]
    dsimp only
    split
    · refine onFrame_isNext ?_ ?_ (slots_lt_of_queueInv (s := s) h.queue)
      · rwa [Memory.length_readFirst]
      · rwa [Memory.length_readFirst]
    · exact ⟨_, rfl⟩

/-- A queue that is not full leaves SEND a free slot. -/
theorem execSend_isNext {s : State} (h : s.Inv) (id : CommandId) (p : List Byte) (tmo : Option Timeout) :
    ∃ t, execSend id p tmo s = .next t := by
  unfold execSend
  split
  · exact ⟨_, rfl⟩
  · split
    · exact ⟨_, rfl⟩
    · rename_i hroom
      obtain ⟨k, hk⟩ := State.leastFree_isSome h.queue hroom
      rw [hk]
      exact ⟨_, rfl⟩

/-- Under the invariants every host-port operation answers a next state. -/
theorem exec_isNext {i : Instr} {s : State} (h : s.Inv) (hi : i.isHostOp = true) : ∃ t, exec i s = .next t := by
  cases i with
  | feedByte b => exact execFeedByte_isNext h b
  | send id p tmo => exact execSend_isNext h id p tmo
  | tick => exact ⟨_, execTick_eq (slots_lt_of_queueInv h.queue)⟩
  | reset => exact ⟨_, rfl⟩
  | illegal w => exact ⟨_, rfl⟩
  | checksum bytes => cases hi
  | encode id p => cases hi
  | onFrame f => cases hi
  | expire k => cases hi
  | decodeTelegram p => cases hi

/-- No host word spells an internal operation (30_encoding.md R86). -/
theorem decode_isHostOp (c : HostCommand) : (decode c).isHostOp = true := by
  unfold decode
  split_ifs <;> rfl

theorem PortEntry.toInstr_isHostOp (x : PortEntry) : x.toInstr.isHostOp = true := by
  cases x with
  | command c => exact decode_isHostOp c
  | direct op => cases op <;> rfl

/-- Settles O44: the operation presented is a host-port operation, which answers a next state and keeps the
invariants. -/
theorem noStepStopsOrBreaksTheInvariants : Obligations.NoStepStopsOrBreaksTheInvariants := by
  intro s h
  unfold step
  cases hport : s.port with
  | nil => exact ⟨s, rfl, h, State.KeepsQueueOrder.of_eq rfl⟩
  | cons x rest =>
    have hrest : ({ s with port := rest } : State).Inv := h.withInterface _ _ _
    obtain ⟨t, ht⟩ := exec_isNext hrest x.toInstr_isHostOp
    have horder := exec_keepsQueueOrder ht
    exact ⟨t, ht, exec_inv hrest ht, horder⟩

end Sys2Proof.Machine
end

section
/-! O46. Stale buffer bytes and the fields of free slots have no effect (10_state.md R38): two states that agree but for
them answer every instruction alike. -/

namespace Sys2Proof.Machine

/-- Where `o` is a next state, `p` is one that agrees with it. -/
def AnswersAlike (o p : Host.Outcome State Fault Refusal) : Prop :=
  ∀ s', o = .next s' → ∃ t', p = .next t' ∧ s'.Agrees t'

theorem AnswersAlike.next {s t : State} (h : s.Agrees t) : AnswersAlike (.next s) (.next t) :=
  fun _ hs => ⟨t, rfl, next_inj hs ▸ h⟩

/-- Of a fault nothing is claimed. -/
theorem AnswersAlike.fault (r : Fault) (p : Host.Outcome State Fault Refusal) : AnswersAlike (.fault r) p :=
  fun _ hs => nomatch hs

/-- Both sides take the same branch. -/
theorem AnswersAlike.ite {c : Prop} [Decidable c] {o o' p p' : Host.Outcome State Fault Refusal}
    (hthen : c → AnswersAlike o p) (helse : ¬c → AnswersAlike o' p') :
    AnswersAlike (if c then o else o') (if c then p else p') := by
  by_cases hc : c
  · rw [if_pos hc, if_pos hc]
    exact hthen hc
  · rw [if_neg hc, if_neg hc]
    exact helse hc

/-! What the operations over the state do to agreeing states -/

theorem State.Agrees.emitAll {s t : State} (h : s.Agrees t) (es : List Event) : (s.emitAll es).Agrees (t.emitAll es) :=
  { h with out := congrArg (· ++ es) h.out }

theorem State.Agrees.emit {s t : State} (h : s.Agrees t) (e : Event) : (s.emit e).Agrees (t.emit e) := h.emitAll [e]

theorem State.Agrees.withRet {s t : State} (h : s.Agrees t) (r : Returned) :
    ({ s with ret := r } : State).Agrees { t with ret := r } :=
  { h with ret := rfl }

theorem State.Agrees.clearParser {s t : State} (h : s.Agrees t) : s.clearParser.Agrees t.clearParser :=
  { h with rxCnt := rfl, rxExp := rfl, buffer := fun a ha => absurd ha (Nat.not_lt_zero a) }

/-- The byte buffered is the same, and those below it agreed. -/
theorem State.Agrees.bufferByte {s t : State} (h : s.Agrees t) (hs : s.rxBuf.wf) (ht : t.rxBuf.wf) (b : Byte) :
    (bufferByte b s).Agrees (bufferByte b t) :=
  { h with
    rxCnt := congrArg (· + 1) h.rxCnt
    buffer := by
      intro a ha
      rw [bufferByte_rxBuf, bufferByte_rxBuf, ← h.rxCnt]
      rcases Nat.lt_succ_iff_lt_or_eq.1 ha with hlt | rfl
      · rw [Memory.read_write_other _ _ _ _ (Nat.ne_of_lt hlt), Memory.read_write_other _ _ _ _ (Nat.ne_of_lt hlt)]
        exact h.buffer a hlt
      · rw [Memory.read_write_same _ _ _ hs, Memory.read_write_same _ _ _ ht] }

/-- The check of the length field reads two bytes, both held. -/
theorem State.Agrees.checkPrefix {s t : State} (h : s.Agrees t) (hcnt : s.rxCnt = 2) :
    (checkPrefix s).Agrees (checkPrefix t) := by
  unfold Machine.checkPrefix
  rw [← h.buffer 0 (by omega), ← h.buffer 1 (by omega)]
  dsimp only
  split
  · have hempty : ({ s with rxCnt := 0 } : State).Agrees { t with rxCnt := 0 } :=
      { h with rxCnt := rfl, buffer := fun a ha => absurd ha (Nat.not_lt_zero a) }
    exact hempty.emit _
  · exact { h with rxExp := rfl }

/-- A slot released in both: the slots still busy are others, which agreed. -/
theorem State.Agrees.expire {s t : State} (h : s.Agrees t) (k : Nat) : (s.expire k).Agrees (t.expire k) :=
  { h with
    q := by rw [State.expire_q, State.expire_q, h.q]
    out := by rw [State.expire_out, State.expire_out, h.out]
    arena := by rw [State.expire_slots, State.expire_slots, List.length_modify, List.length_modify, h.arena]
    busy := fun j => by rw [State.busyAt_expire, State.busyAt_expire, h.busy]
    slots := by
      intro j hj
      rw [State.busyAt_expire, Bool.and_eq_true, bne_iff_ne] at hj
      obtain ⟨hbusy, hne⟩ := hj
      rw [State.expire_slots, State.expire_slots, List.getElem?_modify, List.getElem?_modify, h.slots j hbusy] }

theorem State.Agrees.register {s t : State} (h : s.Agrees t) {k : Nat} (hk : k < s.slots.length) (e : Slot) :
    (s.register k e).Agrees (t.register k e) :=
  { h with
    q := by rw [State.register_q, State.register_q, h.q]
    arena := by rw [State.register_slots, State.register_slots, List.length_set, List.length_set, h.arena]
    busy := fun j => by rw [State.busyAt_register hk, State.busyAt_register (h.arena ▸ hk), h.busy]
    slots := by
      intro j hj
      rw [State.busyAt_register hk] at hj
      rw [State.register_slots, State.register_slots, List.getElem?_set, List.getElem?_set, ← h.arena]
      by_cases hjk : k = j
      · rw [if_pos hjk, if_pos hjk]
      · rw [if_neg (Ne.symm hjk)] at hj
        rw [if_neg hjk, if_neg hjk, h.slots j hj] }

/-! What is read of the arena -/

/-- The choice of a free slot reads the busy bits alone. -/
theorem State.leastFree_eq_findIdx?_busy (s : State) :
    s.leastFree = (s.slots.map Slot.busy).findIdx? (fun b => !b) := by
  rw [State.leastFree, List.findIdx?_map]
  rfl

theorem State.Agrees.map_busy {s t : State} (h : s.Agrees t) : s.slots.map Slot.busy = t.slots.map Slot.busy := by
  refine List.ext_getElem (by rw [List.length_map, List.length_map, h.arena]) (fun k hs ht => ?_)
  rw [List.length_map] at hs ht
  have hk := h.busy k
  rw [State.busyAt, State.busyAt, List.getElem?_eq_getElem hs, List.getElem?_eq_getElem ht] at hk
  rw [List.getElem_map, List.getElem_map]
  exact hk

theorem State.Agrees.leastFree {s t : State} (h : s.Agrees t) : s.leastFree = t.leastFree := by
  rw [State.leastFree_eq_findIdx?_busy, State.leastFree_eq_findIdx?_busy, h.map_busy]

/-- A pending slot's deadline is the same in both. -/
theorem State.Agrees.expiredAt {s t : State} (h : s.Agrees t) {k : Nat} (hk : s.busyAt k = true) (now : Time) :
    s.expiredAt now k = t.expiredAt now k := by
  rw [State.expiredAt, State.expiredAt, h.slots k hk]

/-- TICK's loop expires the same slots in both, where it looks at slots whose deadlines agree. -/
theorem State.Agrees.expireAll {s t : State} (h : s.Agrees t) {ks : List Nat}
    (hks : ∀ k ∈ ks, s.expiredAt s.now k = t.expiredAt s.now k) : (expireAll ks s).Agrees (expireAll ks t) := by
  induction ks generalizing s t with
  | nil => exact h
  | cons k ks ih =>
    have hrest : ∀ j ∈ ks, s.expiredAt s.now j = t.expiredAt s.now j := fun j hj => hks j (List.mem_cons_of_mem _ hj)
    rw [expireAll_cons, expireAll_cons, ← h.now, ← hks k List.mem_cons_self]
    split
    · exact ih (h.expire k) (by simpa using hrest)
    · exact ih h hrest

/-! Every instruction -/

theorem execSend_alike {s t : State} (h : s.Agrees t) (id : CommandId) (p : List Byte) (tmo : Option Timeout) :
    AnswersAlike (execSend id p tmo s) (execSend id p tmo t) := by
  unfold execSend
  rw [← h.q, ← h.arena, ← h.leastFree, ← h.now]
  refine .ite (fun _ => .next (h.emit _)) (fun _ => .ite (fun _ => .next (h.emit _)) (fun _ => ?_))
  cases hleast : s.leastFree with
  | none => exact .fault _ _
  | some k =>
    obtain ⟨hk, _⟩ := State.leastFree_some hleast
    exact .next (((h.register hk _).emit _).emit _)

/-- The oldest expectation is pending, so its slot is the same in both. -/
theorem acceptFrame_alike {s t : State} (h : s.Agrees t) (hs : s.QueueInv) (ht : t.QueueInv) (f : List Byte) :
    AnswersAlike (acceptFrame f s) (acceptFrame f t) := by
  unfold acceptFrame
  rw [← h.q]
  cases hq : s.q with
  | nil =>
    dsimp only
    unfold dispatchUnsolicited
    split
    · exact .next (h.emitAll _)
    · exact .next (h.emit _)
  | cons k rest =>
    dsimp only
    rw [← h.slots k ((State.mem_q_iff hs k).1 (hq ▸ List.mem_cons_self))]
    cases s.slots[k]? with
    | none => exact .fault _ _
    | some e =>
      dsimp only
      rw [resolveHead_eq_expire hs hq, resolveHead_eq_expire ht (h.q ▸ hq), ← h.out]
      exact .next { h.expire k with out := rfl }

theorem onFrame_alike {s t : State} (h : s.Agrees t) (hs : s.QueueInv) (ht : t.QueueInv) (f : List Byte) :
    AnswersAlike (onFrame f s) (onFrame f t) := by
  unfold onFrame
  exact .ite (fun _ => .ite (fun _ => acceptFrame_alike h hs ht f) (fun _ => .next (h.emit _))) (fun _ => .fault _ _)

/-- FEED_BYTE reads only bytes it holds: the length field, or the whole frame. -/
theorem execFeedByte_alike {s t : State} (h : s.Agrees t) (hs : s.Inv) (ht : t.Inv) (b : Byte) :
    AnswersAlike (execFeedByte b s) (execFeedByte b t) := by
  have hbuf := h.bufferByte hs.buffer ht.buffer b
  unfold execFeedByte
  rw [← h.rxCnt, ← h.rxExp]
  refine .ite (fun _ => ?_) (fun _ => .fault _ _)
  cases s.rxExp with
  | none => exact .ite (fun hcnt => .next (hbuf.checkPrefix hcnt)) (fun _ => .next hbuf)
  | some l =>
    refine .ite (fun hcnt => ?_) (fun _ => .next hbuf)
    have hframe : (bufferByte b s).rxBuf.readFirst l.toNat = (bufferByte b t).rxBuf.readFirst l.toNat :=
      Memory.readFirst_congr (fun a ha => hbuf.buffer a (show a < s.rxCnt + 1 from hcnt ▸ ha))
    unfold completeFrame
    rw [← hframe]
    exact onFrame_alike hbuf.clearParser hs.queue ht.queue _

theorem execTick_alike {s t : State} (h : s.Agrees t) (hs : s.QueueInv) (ht : t.QueueInv) :
    AnswersAlike (execTick s) (execTick t) := by
  have hnow : ({ s with now := s.now + 1#32 } : State).Agrees { t with now := t.now + 1#32 } :=
    { h with now := congrArg (· + 1#32) h.now }
  have hscan := hnow.expireAll (fun k hk => hnow.expiredAt ((State.mem_q_iff hs k).1 hk) _)
  rw [execTick_eq (slots_lt_of_queueInv hs), execTick_eq (slots_lt_of_queueInv ht)]
  exact .next (h.q ▸ hscan)

/-- RESET leaves two arenas of one length the same. -/
theorem execReset_alike {s t : State} (h : s.Agrees t) : AnswersAlike (execReset s) (execReset t) := by
  unfold execReset
  rw [← h.arena, ← h.port, ← h.out, ← h.ret]
  exact .next ⟨rfl, rfl, rfl, rfl, rfl, rfl, rfl, fun _ _ => rfl, rfl, fun _ => rfl, fun _ _ => rfl⟩

theorem exec_alike {s t : State} (h : s.Agrees t) (hs : s.Inv) (ht : t.Inv) (i : Instr) :
    AnswersAlike (exec i s) (exec i t) := by
  cases i with
  | feedByte b => exact execFeedByte_alike h hs ht b
  | send id p tmo => exact execSend_alike h id p tmo
  | tick => exact execTick_alike h hs.queue ht.queue
  | reset => exact execReset_alike h
  | illegal w => exact .next (h.emit _)
  | checksum bytes => exact .next (h.withRet _)
  | encode id p => exact .ite (fun _ => .next (h.withRet _)) (fun _ => .fault _ _)
  | onFrame f => exact onFrame_alike h hs.queue ht.queue f
  | expire k =>
    show AnswersAlike (execExpire k s) (execExpire k t)
    unfold execExpire
    rw [← h.arena]
    exact .ite (fun _ => .next (h.expire k)) (fun _ => .fault _ _)
  | decodeTelegram p => exact .next (h.emitAll _)

/-- Settles O46: each instruction reads only what agrees. -/
theorem unspecifiedStateIsUnobservable : Obligations.UnspecifiedStateIsUnobservable :=
  fun i _ _ s' hs ht h hnext => exec_alike h hs ht i s' hnext

end Sys2Proof.Machine
end

section
/-! O47. Events are only appended (20_memory.md R58): what each meaning leaves of `out` begins with what was there. -/

namespace Sys2Proof.Machine

/-- Emitting adds at the end. -/
theorem State.out_prefix_emitAll (s : State) (es : List Event) : s.out <+: (s.emitAll es).out :=
  List.prefix_append _ _

theorem State.out_prefix_emit (s : State) (e : Event) : s.out <+: (s.emit e).out := s.out_prefix_emitAll [e]

theorem checkPrefix_out_prefix (s : State) : s.out <+: (checkPrefix s).out := by
  rcases checkPrefix_cases s with ⟨_, heq⟩ | ⟨_, _, heq⟩
  · rw [heq]
    exact List.prefix_append _ _
  · rw [heq]

theorem execSend_out_prefix {id : CommandId} {p : List Byte} {tmo : Option Timeout} {s t : State}
    (h : execSend id p tmo s = .next t) : s.out <+: t.out := by
  rcases execSend_cases h with ⟨_, rfl⟩ | ⟨_, _, rfl⟩ | ⟨k, _, _, _, rfl⟩
  · exact s.out_prefix_emit _
  · exact s.out_prefix_emit _
  · exact (State.out_prefix_emit (s.register k _) _).trans (State.out_prefix_emit _ _)

theorem onFrame_out_prefix {f : List Byte} {s t : State} (h : onFrame f s = .next t) : s.out <+: t.out := by
  obtain ⟨_, _, ⟨_, rfl⟩ | ⟨_, _, rfl⟩ | ⟨k, rest, e, _, _, _, rfl⟩⟩ := onFrame_cases h
  · exact s.out_prefix_emit _
  · obtain ⟨es, heq, _⟩ := dispatchUnsolicited_eq f s
    exact heq ▸ s.out_prefix_emitAll es
  · exact List.prefix_append _ _

/-- Buffering a byte and emptying the parser emit nothing, so only the prefix check and ON_FRAME can add events. -/
theorem execFeedByte_out_prefix {b : Byte} {s t : State} (h : execFeedByte b s = .next t) : s.out <+: t.out := by
  obtain ⟨_, ⟨_, _, rfl⟩ | ⟨_, _, rfl⟩ | ⟨_, _, _, rfl⟩ | ⟨_, _, _, hframe⟩⟩ := execFeedByte_cases h
  · exact List.prefix_rfl
  · exact checkPrefix_out_prefix (bufferByte b s)
  · exact List.prefix_rfl
  · exact (onFrame_out_prefix hframe :)

/-- TICK adds the timeouts of the slots that expire. -/
theorem execTick_out_prefix {s t : State} (h : execTick s = .next t) : s.out <+: t.out := by
  obtain rfl := execTick_cases h
  obtain ⟨_, _, _, _, _, _, _, hout, _⟩ := expireAll_spec s.q { s with now := s.now + 1#32 }
  exact hout ▸ List.prefix_append _ _

/-- Settles O47: an instruction keeps `out` as it is (RESET, CHECKSUM, ENCODE) or adds at its end. -/
theorem eventsAreOnlyAppended : Obligations.EventsAreOnlyAppended := by
  intro i s t h
  cases i with
  | feedByte b => exact execFeedByte_out_prefix h
  | send id p tmo => exact execSend_out_prefix h
  | tick => exact execTick_out_prefix h
  | reset => rw [next_inj h]
  | illegal w => exact next_inj h ▸ s.out_prefix_emit _
  | checksum bytes => rw [next_inj h]
  | encode id p => rw [(execEncode_cases h).2]
  | onFrame f => exact onFrame_out_prefix h
  | expire k => exact (execExpire_cases h).2 ▸ List.prefix_append _ _
  | decodeTelegram p => exact next_inj h ▸ s.out_prefix_emitAll _

end Sys2Proof.Machine
end

section
/-! O2. RESET is idempotent (20_memory.md R56): what it writes depends on the number of slots alone, which it keeps. -/

namespace Sys2Proof.Machine

/-- A second RESET finds the same number of slots, so it writes the same state again. -/
theorem execReset_idem {s t : State} (h : execReset s = .next t) : execReset t = .next t := by
  obtain rfl := next_inj h
  simp [execReset]

/-- Settles O2: every state RESET leaves is a fixed point of it, and so is State.reset, which holds the values RESET
writes. -/
theorem resetIsIdempotent : Obligations.ResetIsIdempotent :=
  ⟨fun _ => ⟨_, rfl, execReset_idem rfl⟩, rfl⟩

end Sys2Proof.Machine
end

section
/-! O36. The closed form of a telegram whose flagged fields all fit (42_telegram.md R171 to R182): the rows of the field
list are read one after the other, each at the offset where the one before it ends. -/

namespace Sys2Proof.Machine

/-- The fields of a notification with mask `mask` and the bytes `r` after it, before the record is finished: the RSSI
byte at offset 0, and each other flagged field at the offset given for it. -/
def fieldsAt (mask : Half) (r : List Byte) (oTimestamp oLength oControl oAddress : Nat) : Telegram :=
  { emptyTelegram mask with
    rssi := if mask.getLsbD 15 then some (byteAt r 0) else none
    timestampRaw := if mask.getLsbD 3 then some (be32 r oTimestamp) else none
    llOffset := oLength
    lengthField := if mask.getLsbD 2 then some (byteAt r oLength) else none
    controlField := if mask.getLsbD 1 then some (byteAt r oControl) else none
    manufacturerId := if mask.getLsbD 0 then some (manufacturerCodes (le16 r oAddress)) else none
    deviceAddress := if mask.getLsbD 0 then some (le32 r (oAddress + 2)) else none
    deviceVersion := if mask.getLsbD 0 then some (byteAt r (oAddress + 6)) else none
    deviceType := if mask.getLsbD 0 then some (byteAt r (oAddress + 7)) else none }

/-- A row read at `o` and ending at `o'`, within the data. -/
theorem readField_upTo {mask : Half} {row : FieldRow} {r : List Byte} {o o' : Nat} (ho : o' = o + rowNeeds mask row)
    (hfit : o' ≤ r.length) (t : Telegram) :
    readField mask r (⟨o, false⟩, t) row =
      (⟨o', false⟩, if mask.getLsbD row.bit then storeField t (slice r o (o + row.size)) row.field else t) := by
  subst ho
  exact readField_within hfit t

/-- When every flagged field fits, each is read where the one before it ends, and the offset ends after the last. -/
theorem readFields_within {mask : Half} {r : List Byte} {o1 o2 o3 o4 o5 : Nat}
    (h1 : o1 = if mask.getLsbD 15 then 1 else 0)
    (h2 : o2 = o1 + if mask.getLsbD 3 then 4 else 0)
    (h3 : o3 = o2 + if mask.getLsbD 2 then 1 else 0)
    (h4 : o4 = o3 + if mask.getLsbD 1 then 1 else 0)
    (h5 : o5 = o4 + if mask.getLsbD 0 then 8 else 0) (hfit : o5 ≤ r.length) :
    readFields mask r = (⟨o5, false⟩, fieldsAt mask r o1 o2 o3 o4) := by
  have h1' : o1 = 0 + rowNeeds mask ⟨15, .rssi, 1⟩ := h1.trans (Nat.zero_add _).symm
  simp only [readFields, fieldsBeforeLl, fieldsAfterLl, List.foldl_cons, List.foldl_nil]
  rw [readField_upTo h1' (by omega), readField_upTo h2 (by omega), readField_upTo h3 (by omega),
    readField_upTo h4 (by omega), readField_upTo h5 hfit]
  simp only [storeField_if_rssi, storeField_if_timestamp, storeField_if_length, storeField_if_control,
    storeField_if_address]
  rw [byteAt_slice r 0 1 0 (by decide), be32_slice r o1 4 0 (by decide), byteAt_slice r o2 1 0 (by decide),
    byteAt_slice r o3 1 0 (by decide), le16_slice r o4 8 0 (by decide), le32_slice r o4 8 2 (by decide),
    byteAt_slice r o4 8 6 (by decide), byteAt_slice r o4 8 7 (by decide)]
  rfl

/-- A bit of a mask in numbers. -/
theorem getLsbD_eq_decide (mask : Half) (i : Nat) : mask.getLsbD i = decide (mask.toNat / 2 ^ i % 2 = 1) :=
  Nat.testBit_eq_decide_div_mod_eq

/-- The link layer is incomplete exactly when mask bits 0 to 2 are not all set (42_telegram.md R182). -/
theorem isIncompleteLl_fieldsAt (mask : Half) (r : List Byte) (o1 o2 o3 o4 : Nat) :
    isIncompleteLl (fieldsAt mask r o1 o2 o3 o4) = true ↔ mask.toNat % 8 ≠ 7 := by
  simp only [isIncompleteLl, fieldsAt, isNone_if, getLsbD_eq_decide, Bool.or_eq_true, Bool.not_eq_true',
    decide_eq_false_iff_not]
  omega

/-- Settles O36: the events are those of the closed form, with no truncation to report. -/
theorem flaggedFieldsAreReadInOrder : Obligations.FlaggedFieldsAreReadInOrder := by
  intro hi lo r s mask o1 o2 o3 o4 o5 hmask h1 h2 h3 h4 h5 hfit
  have ht : telegramOf mask r = finishTelegram r (⟨o5, false⟩, fieldsAt mask r o1 o2 o3 o4) := by
    rw [telegramOf, readFields_within h1 h2 h3 h4 h5 hfit]
  have htrunc : (telegramOf mask r).truncated = false := by rw [ht]; rfl
  have hll : (telegramOf mask r).incompleteLl = true ↔ mask.toNat % 8 ≠ 7 := by
    rw [ht]
    exact isIncompleteLl_fieldsAt mask r o1 o2 o3 o4
  have hpayload : (telegramOf mask r).rawApplicationPayload = r.drop o5 := by
    rw [ht]
    exact List.take_of_length_le (by simp)
  have hevents : telegramEvents Config.maskOrder (hi :: lo :: r) =
      [.telegram (telegramOf mask r)] ++
        if mask.toNat % 8 = 7 then [] else [.diag (.incompleteLinkLayer mask)] := by
    rw [telegramEvents_cons, ← hmask, htrunc]
    simp [hll]
  refine ⟨telegramOf mask r, congrArg (fun es => Host.Outcome.next (s.emitAll es)) hevents, ?_, ?_, ?_, ?_, ?_, ?_, ?_,
    ?_, ?_, ?_, ?_, hpayload, htrunc, hll⟩
  all_goals rw [ht]; rfl

end Sys2Proof.Machine
end

section
/-! O39. The manufacturer word (30_encoding.md R79): three groups of 5 bits, each plus 64, bit 15 in none of them. -/

namespace Sys2Proof.Machine

/-- The code of the group at bit `lo`, in numbers: no carry leaves the byte. -/
theorem toNat_manufacturerCode (m : Half) (lo : Nat) :
    ((m.extractLsb' lo 5).setWidth 8 + Config.mfrBias : Byte).toNat = m.toNat / 2 ^ lo % 32 + 64 := by
  rw [BitVec.toNat_add, BitVec.toNat_setWidth, BitVec.extractLsb'_toNat, Nat.shiftRight_eq_div_pow]
  show (m.toNat / 2 ^ lo % 32 % 256 + 64) % 256 = _
  omega

/-- Each of the three codes is that of a group. -/
theorem exists_group_of_mem_manufacturerCodes {m : Half} {c : Byte} (h : c ∈ (manufacturerCodes m).toList) :
    ∃ lo, c = (m.extractLsb' lo 5).setWidth 8 + Config.mfrBias := by
  simp only [manufacturerCodes, Vector.toList_mk, List.mem_cons, List.not_mem_nil, or_false] at h
  obtain h | h | h := h
  · exact ⟨10, h⟩
  · exact ⟨5, h⟩
  · exact ⟨0, h⟩

/-- Bit 15 is in no group. -/
theorem manufacturerCodes_flip_bit15 (m : Half) : manufacturerCodes (m ^^^ 0x8000#16) = manufacturerCodes m := by
  have hbit : ∀ j < 15, (0x8000#16).getLsbD j = false := by decide
  have hgroup (lo : Nat) (h : lo + 5 ≤ 15) : (m ^^^ 0x8000#16).extractLsb' lo 5 = m.extractLsb' lo 5 := by
    refine BitVec.eq_of_getLsbD_eq fun i hi => ?_
    simp [hi, hbit (lo + i) (by omega)]
  simp only [manufacturerCodes, hgroup 10 (by decide), hgroup 5 (by decide), hgroup 0 (by decide)]

/-- Settles O39: the groups of a word, and O36 for a notification that flags the address block alone, which starts
where the mask ends. -/
theorem manufacturerCodeGroups : Obligations.ManufacturerCodeGroups := by
  refine ⟨fun m => ⟨toNat_manufacturerCode m 10, toNat_manufacturerCode m 5,
    (toNat_manufacturerCode m 0).trans (by rw [pow_zero, Nat.div_one]), ?_, manufacturerCodes_flip_bit15 m⟩, ?_⟩
  · intro c hc
    obtain ⟨lo, rfl⟩ := exists_group_of_mem_manufacturerCodes hc
    rw [toNat_manufacturerCode]
    omega
  · intro m0 m1 rest s hrest
    obtain ⟨t, hexec, _, _, _, _, _, _, _, hmfr, _⟩ :=
      flaggedFieldsAreReadInOrder 0x00#8 0x01#8 (m0 :: m1 :: rest) s 0x0001#16 0 0 0 0 8 (by decide) (by decide)
        (by decide) (by decide) (by decide) (by decide) (by simp; omega)
    refine ⟨t, _, m1 ++ m0, hexec, ?_, ?_, hmfr⟩
    · rw [newEvents_eq rfl]; rfl
    · rw [toNat_be16]; omega

end Sys2Proof.Machine
end

section
/-! O10. The words that spell no operation (30_encoding.md R86). -/

namespace Sys2Proof

/-- A command decodes to ILLEGAL exactly when its word is of no legal form, and then to ILLEGAL of that word. -/
theorem decode_eq_illegal_iff (c : HostCommand) (w : HostWord) :
    decode c = .illegal w ↔ HostWord.isLegal c.word = false ∧ w = c.word := by
  unfold decode HostWord.isLegal
  split_ifs with h1 h2 h3 h4
  · simp [h1]
  · simp [h2]
  · simp [h3]
  · simp [h4]
  · simp [h1, h2, h3, h4, eq_comm]

/-- A word is legal exactly when it is of one of the four forms of 30_encoding.md R85, in numbers. -/
theorem HostWord.isLegal_iff (w : HostWord) :
    HostWord.isLegal w = true ↔
      (w.toNat / 2 ^ 28 = 1 ∧ w.toNat / 2 ^ 8 % 2 ^ 20 = 0) ∨ (w.toNat / 2 ^ 28 = 2 ∧ w.toNat / 2 ^ 17 % 2 ^ 11 = 0) ∨
        w.toNat = 3 * 2 ^ 28 ∨ w.toNat = 15 * 2 ^ 28 := by
  simp only [HostWord.isLegal, Bool.or_eq_true, HostWord.isFeedByte_iff, HostWord.isSend_iff, HostWord.isTick_iff,
    HostWord.isReset_iff, or_assoc]

end Sys2Proof

namespace Sys2Proof.Machine

/-- Settles O10: the illegal words are those of none of the four legal forms. -/
theorem reservedHostWordsAreIllegal : Obligations.ReservedHostWordsAreIllegal := by
  refine ⟨fun c => ?_, fun c w h => ((decode_eq_illegal_iff c w).1 h).2, fun _ _ => rfl, decode_isHostOp⟩
  have hlt := c.word.isLt
  have hillegal : (∃ w, decode c = .illegal w) ↔ ¬ HostWord.isLegal c.word = true := by
    simp [decode_eq_illegal_iff]
  rw [hillegal, HostWord.isLegal_iff]
  omega

end Sys2Proof.Machine
end

section
/-! O40 and O42. The readings of the host: status texts (30_encoding.md R75), an RSSI (R82), a timestamp (R81). -/

namespace Sys2Proof.Machine

/-- Codes from 8 up are unmapped. -/
theorem statusText_unmapped {c : Byte} (h : 8 ≤ c.toNat) : statusText c = .unknown := by
  unfold statusText
  split
  case h_9 => rfl
  all_goals omega

/-- A matching frame for a command that expects a status (41_transaction.md R138). -/
theorem resultFor_status {e : Slot} {rid : Byte} (hid : e.expId = rid) (hstatus : e.statusExp = true) (p : List Byte) :
    resultFor e rid p = .ok rid (some (byteAt p 0)) (slice p 1 p.length) := by
  rw [resultFor, if_pos hid.symm, if_pos hstatus]

/-- Settles O40: the table is evaluated, and a matching result carries the first payload byte as it came. -/
theorem statusTextOfCodes : Obligations.StatusTextOfCodes :=
  ⟨by decide, fun _ => statusText_unmapped, fun _ _ p hid hstatus => ⟨_, resultFor_status hid hstatus p⟩⟩

/-- An RSSI byte is read as two's complement (30_encoding.md R82). -/
theorem rssiValue_eq (b : Byte) : rssiValue b = if b.toNat < 128 then (b.toNat : Int) else (b.toNat : Int) - 256 := by
  rw [rssiValue, BitVec.toInt_eq_toNat_cond]
  split_ifs <;> omega

/-- The seconds are an exact quotient (30_encoding.md R81). -/
theorem timestampSeconds_mul_tsDiv (raw : BitVec 32) : timestampSeconds raw * 32768 = raw.toNat :=
  div_mul_cancel₀ _ (by norm_num)

/-- Settles O42: the two readings, one each. -/
theorem rssiAndTimestampReadings : Obligations.RssiAndTimestampReadings :=
  ⟨rssiValue_eq, timestampSeconds_mul_tsDiv⟩

end Sys2Proof.Machine
end

section
/-! O11 to O14. One lemma for each way FEED_BYTE can go (40_frame_codec.md R102 to R104): the byte is buffered, it
closes a legal or a malformed length prefix, or it completes a frame. -/

namespace Sys2Proof.Machine

/-- Under the invariants the buffer has room (10_state.md R24). -/
theorem State.Inv.rxCnt_lt {s : State} (h : s.Inv) : s.rxCnt < 512 := by
  cases hexp : s.rxExp with
  | none =>
    have hle := (State.parserInv_of_none hexp).1 h.parser
    omega
  | some l =>
    obtain ⟨_, h512, _, hlt, _⟩ := (State.parserInv_of_some hexp).1 h.parser
    omega

/-- The first byte of a prefix, or a byte of the body before the last, is only buffered. -/
theorem execFeedByte_buffers {b : Byte} {s : State} (h : s.Inv)
    (hwait : (s.rxExp = none ∧ s.rxCnt = 0) ∨ ∃ l, s.rxExp = some l ∧ s.rxCnt + 1 < l.toNat) :
    execFeedByte b s = .next (bufferByte b s) := by
  rw [execFeedByte, if_pos h.rxCnt_lt]
  rcases hwait with ⟨hexp, hcnt⟩ | ⟨l, hexp, hlt⟩
  · simp [hexp, hcnt]
  · simp [hexp, Nat.ne_of_lt hlt]

/-- The second byte of a prefix is buffered, and the prefix is checked. -/
theorem execFeedByte_checksPrefix {b : Byte} {s : State} (hexp : s.rxExp = none) (hcnt : s.rxCnt = 1) :
    execFeedByte b s = .next (checkPrefix (bufferByte b s)) := by
  simp [execFeedByte, hexp, hcnt]

/-- The prefix then held: the byte held before, and the new one. -/
theorem bufferByte_prefix {b : Byte} {s : State} (h : s.Inv) (hcnt : s.rxCnt = 1) :
    (bufferByte b s).rxBuf.read 0 ++ (bufferByte b s).rxBuf.read 1 = s.rxBuf.read 0 ++ b := by
  rw [bufferByte_rxBuf, hcnt, Memory.read_write_same _ _ _ h.buffer, Memory.read_write_other _ _ _ _ (by decide)]

/-- A second prefix byte that gives a length of 5 to 512 opens a body of that length (40_frame_codec.md R102). -/
theorem execFeedByte_opensBody {b : Byte} {s : State} (h : s.Inv) (hexp : s.rxExp = none) (hcnt : s.rxCnt = 1)
    (h5 : 5 ≤ (s.rxBuf.read 0 ++ b : Half).toNat) (h512 : (s.rxBuf.read 0 ++ b : Half).toNat ≤ 512) :
    execFeedByte b s =
      .next { s with rxBuf := s.rxBuf.write 1 b, rxCnt := 2, rxExp := some (s.rxBuf.read 0 ++ b) } := by
  have hpre := bufferByte_prefix (b := b) h hcnt
  rw [execFeedByte_checksPrefix hexp hcnt]
  rcases checkPrefix_cases (bufferByte b s) with ⟨hbad, _⟩ | ⟨_, _, heq⟩
  · rw [hpre] at hbad
    omega
  · rw [heq, hpre, bufferByte, hcnt]

/-- A second prefix byte that gives another length drops both bytes with a diagnostic (40_frame_codec.md R103). -/
theorem execFeedByte_dropsPrefix {b : Byte} {s : State} (h : s.Inv) (hexp : s.rxExp = none) (hcnt : s.rxCnt = 1)
    (hbad : (s.rxBuf.read 0 ++ b : Half).toNat < 5 ∨ 512 < (s.rxBuf.read 0 ++ b : Half).toNat) :
    execFeedByte b s =
      .next { s with
        rxBuf := s.rxBuf.write 1 b
        rxCnt := 0
        out := s.out ++ [.diag (.malformedLength (s.rxBuf.read 0 ++ b))] } := by
  have hpre := bufferByte_prefix (b := b) h hcnt
  rw [execFeedByte_checksPrefix hexp hcnt]
  rcases checkPrefix_cases (bufferByte b s) with ⟨_, heq⟩ | ⟨h5, h512, _⟩
  · rw [heq, hpre, bufferByte, hcnt]
    rfl
  · rw [hpre] at h5 h512
    omega

/-- The last byte of a body hands ON_FRAME the bytes held and itself, the parser already empty (40_frame_codec.md
R104). -/
theorem execFeedByte_completes {b : Byte} {s : State} {l : Half} (h : s.Inv) (hexp : s.rxExp = some l)
    (hlast : s.rxCnt + 1 = l.toNat) :
    execFeedByte b s = onFrame (s.rxBuf.readFirst s.rxCnt ++ [b]) (bufferByte b s).clearParser := by
  rw [execFeedByte, if_pos h.rxCnt_lt]
  simp only [hexp, hlast, if_true]
  rw [completeFrame, bufferByte_rxBuf, ← hlast, Memory.readFirst_write _ _ _ h.buffer]

/-- ON_FRAME leaves the buffer and the Parser State as they are (10_state.md R21, 20_memory.md R50). -/
theorem onFrame_keepsParser {f : List Byte} {s t : State} (h : onFrame f s = .next t) :
    t.rxBuf = s.rxBuf ∧ t.rxCnt = s.rxCnt ∧ t.rxExp = s.rxExp := by
  obtain ⟨_, _, ⟨_, rfl⟩ | ⟨_, _, rfl⟩ | ⟨k, rest, e, _, _, _, rfl⟩⟩ := onFrame_cases h
  · exact ⟨rfl, rfl, rfl⟩
  · obtain ⟨es, heq, _⟩ := dispatchUnsolicited_eq f s
    exact heq ▸ ⟨rfl, rfl, rfl⟩
  · exact ⟨rfl, rfl, rfl⟩

/-- Settles O11: the byte is only buffered, which writes one index of the buffer and counts. -/
theorem feedByteStoresTheByte : Obligations.FeedByteStoresTheByte := fun _ _ h hwait =>
  ⟨_, execFeedByte_buffers h hwait, Memory.read_write_same _ _ _ h.buffer,
    fun _ ha => Memory.read_write_other _ _ _ _ ha⟩

/-- Settles O12: the prefix held is the big-endian value of its two bytes, and it is legal. -/
theorem legalPrefixOpensABody : Obligations.LegalPrefixOpensABody := by
  intro b s h hexp hcnt h5 h512
  have hval := toNat_be16 (s.rxBuf.read 0) b
  exact ⟨_, _, execFeedByte_opensBody h hexp hcnt (by omega) (by omega), hval,
    Memory.read_write_same _ _ _ h.buffer, fun _ ha => Memory.read_write_other _ _ _ _ ha⟩

/-- Settles O13: the prefix is dropped, and what is left awaits the first byte of a new one. -/
theorem malformedPrefixIsDropped : Obligations.MalformedPrefixIsDropped := by
  intro b s h hexp hcnt hbad
  have hval := toNat_be16 (s.rxBuf.read 0) b
  have hdrop := execFeedByte_dropsPrefix (b := b) h hexp hcnt (by omega)
  have hinv := execFeedByte_inv h hdrop
  exact ⟨_, _, hval, hdrop, fun _ ha => Memory.read_write_other _ _ _ _ ha,
    fun _ => ⟨_, Memory.read_write_same _ _ _ hinv.buffer, execFeedByte_buffers hinv (.inl ⟨hexp, rfl⟩)⟩⟩

/-- Settles O14: ON_FRAME answers for the completed frame, and leaves the parser as it finds it, empty. -/
theorem completedFrameGoesToOnFrame : Obligations.CompletedFrameGoesToOnFrame := by
  intro b s l h hexp hlast
  obtain ⟨t, ht⟩ := execFeedByte_isNext h b
  have hframe := (execFeedByte_completes h hexp hlast).symm.trans ht
  obtain ⟨hbuf, hcnt, hnone⟩ := onFrame_keepsParser hframe
  refine ⟨s.rxBuf.write s.rxCnt b, t, ht, hframe, ?_, Memory.read_write_same _ _ _ h.buffer,
    fun a ha => Memory.read_write_other _ _ _ _ ha, hbuf, hcnt, hnone⟩
  rw [List.length_append, Memory.length_readFirst, ← hlast, List.length_singleton]

end Sys2Proof.Machine
end

section
/-! O15. A stream fed in chunks is the stream fed byte by byte (40_frame_codec.md R105): under the invariants no byte
stops, so each chunk runs to its end and the next one goes on from there. -/

namespace Sys2Proof.Machine

/-- A run of host-port operations answers a next state and keeps the invariants. -/
theorem runAll_isNext {is : List Instr} {s : State} (h : s.Inv) (hhost : ∀ i ∈ is, i.isHostOp = true) :
    ∃ t, runAll is s = .next t ∧ t.Inv := by
  induction is generalizing s with
  | nil => exact ⟨s, rfl, h⟩
  | cons i is ih =>
    obtain ⟨hi, his⟩ := List.forall_mem_cons.1 hhost
    obtain ⟨u, hu⟩ := exec_isNext h hi
    rw [runAll_cons is hu]
    exact ih (exec_inv h hu) his

/-- A stream is a run of FEED_BYTEs, so no byte of it stops. -/
theorem runAll_feed_isNext {s : State} (h : s.Inv) (bs : List Byte) :
    ∃ t, runAll (feed bs) s = .next t ∧ t.Inv :=
  runAll_isNext h (List.forall_mem_map.2 fun _ _ => rfl)

theorem feedChunks_cons {c : List Byte} {s t : State} (cs : List (List Byte)) (h : runAll (feed c) s = .next t) :
    feedChunks (c :: cs) s = feedChunks cs t := by
  rw [feedChunks, h]

/-- Settles O15, by induction on the chunks. -/
theorem chunkBoundariesDoNotMatter : Obligations.ChunkBoundariesDoNotMatter := by
  intro chunks
  induction chunks with
  | nil => exact fun s _ => ⟨s, rfl, rfl⟩
  | cons c cs ih =>
    intro s h
    obtain ⟨u, hu, hinv⟩ := runAll_feed_isNext h c
    rw [feedChunks_cons cs hu, List.flatten_cons, feed_append, runAll_append _ hu]
    exact ih u hinv

end Sys2Proof.Machine
end

section
/-! O16. A frame whose first two bytes are its own length passes the parser whole (40_frame_codec.md R107): the prefix
opens its body, the bytes of the body before the last are buffered, and the last one completes it. -/

namespace Sys2Proof.Machine

theorem runAll_singleton (i : Instr) (s : State) : runAll [i] s = exec i s := by
  rw [runAll]
  cases exec i s <;> rfl

/-- The first byte of a prefix is only buffered, at index 0. -/
theorem runAll_feed_first {a : Byte} {s : State} (bs : List Byte) (h : s.Inv) (hexp : s.rxExp = none)
    (hcnt : s.rxCnt = 0) :
    runAll (feed (a :: bs)) s = runAll (feed bs) (bufferByte a s) ∧ (bufferByte a s).Inv ∧
      (bufferByte a s).rxBuf.read 0 = a := by
  have ha : exec (.feedByte a) s = .next (bufferByte a s) := execFeedByte_buffers h (.inl ⟨hexp, hcnt⟩)
  refine ⟨runAll_cons _ ha, exec_inv h ha, ?_⟩
  rw [bufferByte_rxBuf, hcnt, Memory.read_write_same _ _ _ h.buffer]

/-- Two bytes fed to an empty parser are a prefix, which is checked. -/
theorem runAll_feed_pair {a b : Byte} {s : State} (h : s.Inv) (hexp : s.rxExp = none) (hcnt : s.rxCnt = 0) :
    runAll (feed [a, b]) s = .next (checkPrefix (bufferByte b (bufferByte a s))) := by
  rw [(runAll_feed_first [b] h hexp hcnt).1]
  exact (runAll_singleton _ _).trans (execFeedByte_checksPrefix hexp (congrArg (· + 1) hcnt))

/-- Two bytes fed to an empty parser that give a length of 5 to 512 open a body of that length. -/
theorem runAll_feed_prefix {a b : Byte} {s : State} (bs : List Byte) (h : s.Inv) (hexp : s.rxExp = none)
    (hcnt : s.rxCnt = 0) (h5 : 5 ≤ (a ++ b : Half).toNat) (h512 : (a ++ b : Half).toNat ≤ 512) :
    ∃ m t, t = { s with rxBuf := m, rxCnt := 2, rxExp := some (a ++ b) } ∧
      runAll (feed (a :: b :: bs)) s = runAll (feed bs) t ∧ t.Inv ∧ m.readFirst 2 = [a, b] := by
  obtain ⟨hfirst, h1, hread⟩ := runAll_feed_first (a := a) (b :: bs) h hexp hcnt
  have hsecond := execFeedByte_opensBody (b := b) h1 hexp (congrArg (· + 1) hcnt) (by rwa [hread]) (by rwa [hread])
  rw [hread] at hsecond
  refine ⟨_, _, rfl, hfirst.trans (runAll_cons _ hsecond), execFeedByte_inv h1 hsecond, ?_⟩
  rw [Memory.readFirst_write _ _ _ h1.buffer, Memory.readFirst_succ, hread]
  rfl

/-- Two bytes fed to an empty parser that give another length are dropped with a diagnostic. -/
theorem runAll_feed_malformedPrefix {a b : Byte} {s : State} (bs : List Byte) (h : s.Inv) (hexp : s.rxExp = none)
    (hcnt : s.rxCnt = 0) (hbad : (a ++ b : Half).toNat < 5 ∨ 512 < (a ++ b : Half).toNat) :
    ∃ m t, t = { s with rxBuf := m, rxCnt := 0, out := s.out ++ [.diag (.malformedLength (a ++ b))] } ∧
      runAll (feed (a :: b :: bs)) s = runAll (feed bs) t ∧ t.Inv := by
  obtain ⟨hfirst, h1, hread⟩ := runAll_feed_first (a := a) (b :: bs) h hexp hcnt
  have hsecond := execFeedByte_dropsPrefix (b := b) h1 hexp (congrArg (· + 1) hcnt) (by rwa [hread])
  rw [hread] at hsecond
  exact ⟨_, _, rfl, hfirst.trans (runAll_cons _ hsecond), execFeedByte_inv h1 hsecond⟩

/-- Bytes of a body that do not reach its end are buffered one after another behind those held. -/
theorem runAll_feed_body {bs : List Byte} {s : State} {l : Half} (h : s.Inv) (hexp : s.rxExp = some l)
    (hlt : s.rxCnt + bs.length < l.toNat) :
    ∃ m t, t = { s with rxBuf := m, rxCnt := s.rxCnt + bs.length } ∧ runAll (feed bs) s = .next t ∧ t.Inv ∧
      m.readFirst (s.rxCnt + bs.length) = s.rxBuf.readFirst s.rxCnt ++ bs := by
  induction bs generalizing s with
  | nil => exact ⟨s.rxBuf, s, rfl, rfl, h, (List.append_nil _).symm⟩
  | cons b bs ih =>
    rw [List.length_cons] at hlt ⊢
    have hb : exec (.feedByte b) s = .next (bufferByte b s) := execFeedByte_buffers h (.inr ⟨l, hexp, by omega⟩)
    obtain ⟨m, t, ht, hrun, hinv, hread⟩ := ih (exec_inv h hb) hexp (by rw [bufferByte_rxCnt]; omega)
    rw [bufferByte_rxCnt, Nat.add_right_comm, Nat.add_assoc] at ht hread
    refine ⟨m, t, ht, (runAll_cons _ hb).trans hrun, hinv, ?_⟩
    rw [hread, bufferByte_rxBuf, Memory.readFirst_write _ _ _ h.buffer, List.append_assoc, List.singleton_append]

/-- A legal frame fed to an empty parser answers what ON_FRAME of it answers, the parser empty again. -/
theorem runAll_feed_frame {a b c : Byte} {body : List Byte} {s : State} (h : s.Inv) (hexp : s.rxExp = none)
    (hcnt : s.rxCnt = 0) (hlen : (a ++ b : Half).toNat = body.length + 3) (h2 : 2 ≤ body.length)
    (h509 : body.length ≤ 509) :
    ∃ m, runAll (feed (a :: b :: (body ++ [c]))) s = onFrame (a :: b :: (body ++ [c])) { s with rxBuf := m } := by
  obtain ⟨m, _, rfl, hprefix, hinv, hread⟩ :=
    runAll_feed_prefix (a := a) (b := b) (body ++ [c]) h hexp hcnt (by omega) (by omega)
  obtain ⟨m', _, rfl, hbody, hinv', hread'⟩ := runAll_feed_body (bs := body) hinv rfl (by rw [hlen]; dsimp only; omega)
  have hlast := execFeedByte_completes (b := c) hinv' rfl (by rw [hlen]; dsimp only; omega)
  refine ⟨m'.write (2 + body.length) c, ?_⟩
  calc runAll (feed (a :: b :: (body ++ [c]))) s
      = execFeedByte c { s with rxBuf := m', rxCnt := 2 + body.length, rxExp := some (a ++ b) } := by
        rw [hprefix, feed_append, runAll_append _ hbody]
        exact runAll_singleton _ _
    _ = onFrame (a :: b :: (body ++ [c]))
          { s with rxBuf := m'.write (2 + body.length) c, rxCnt := 0, rxExp := none } := by
        rw [hlast, hread', hread]
        rfl
    _ = onFrame (a :: b :: (body ++ [c])) { s with rxBuf := m'.write (2 + body.length) c } := by
        rw [← hcnt, ← hexp]

/-- An encoded frame as the parser meets it: its length prefix, its body and its checksum. -/
theorem encodeFrame_eq (id : CommandId) (payload : List Byte) :
    encodeFrame id payload = byteAt (encodeFrame id payload) 0 :: byteAt (encodeFrame id payload) 1 ::
      (requestId id :: payload ++ [checksum (frameHead id payload)]) := rfl

/-- An encoded frame with a payload parses back whole. -/
theorem runAll_feed_encodeFrame {payload : List Byte} {s : State} (id : CommandId) (h : s.Inv) (hexp : s.rxExp = none)
    (hcnt : s.rxCnt = 0) (h1 : 1 ≤ payload.length) (h508 : payload.length ≤ 508) :
    ∃ m, runAll (feed (encodeFrame id payload)) s = onFrame (encodeFrame id payload) { s with rxBuf := m } := by
  have hprefix := encodeFrame_prefix id payload h508
  have hbody : (requestId id :: payload).length = payload.length + 1 := rfl
  rw [encodeFrame_eq]
  exact runAll_feed_frame h hexp hcnt (by rw [hprefix, hbody]) (by omega) (by omega)

theorem checkPrefix_slots (s : State) : (checkPrefix s).slots = s.slots := by
  rcases checkPrefix_cases s with ⟨_, heq⟩ | ⟨_, _, heq⟩
  · rw [heq, State.raise_slots]
  · rw [heq]

/-- The prefix check emits nothing, or one MalformedLength (40_frame_codec.md R103). -/
theorem checkPrefix_out (s : State) :
    ∃ es, (checkPrefix s).out = s.out ++ es ∧ ∀ e ∈ es, ∃ l, e = .diag (.malformedLength l) := by
  rcases checkPrefix_cases s with ⟨_, heq⟩ | ⟨_, _, heq⟩
  · rw [heq]
    exact ⟨_, rfl, fun _ he => ⟨_, List.mem_singleton.1 he⟩⟩
  · rw [heq]
    exact ⟨[], (List.append_nil _).symm, fun _ he => absurd he List.not_mem_nil⟩

/-- Settles O16: a frame with a payload reaches ON_FRAME whole. Of one without, the length 4 is dropped, and the id and
the checksum are taken for a new prefix, which is checked. -/
theorem encodedFrameParsesBack : Obligations.EncodedFrameParsesBack := by
  constructor
  · intro id payload s h hexp hcnt h1 h508
    obtain ⟨m, hrun⟩ := runAll_feed_encodeFrame id h hexp hcnt h1 h508
    obtain ⟨t, ht, _⟩ := runAll_feed_isNext h (encodeFrame id payload)
    refine ⟨m, t, ht, hrun.symm.trans ht, ?_, encodeFrame_payload id payload, encodeFrame_checksum id payload⟩
    rw [encodeFrame_id, toNat_requestId]
  · intro id s h hexp hcnt
    obtain ⟨i, c, hframe⟩ : ∃ i c, encodeFrame id [] = [0x00#8, 0x04#8, i, c] := ⟨_, _, rfl⟩
    obtain ⟨m, u, rfl, hdrop, hinv⟩ :=
      runAll_feed_malformedPrefix (a := 0x00#8) (b := 0x04#8) [i, c] h hexp hcnt (.inl (by decide))
    have hpair := runAll_feed_pair (a := i) (b := c) hinv hexp rfl
    obtain ⟨rest, hout, hrest⟩ := checkPrefix_out (bufferByte c (bufferByte i _))
    rw [hframe, hdrop]
    refine ⟨_, rest, hpair, ?_, hrest, checkPrefix_q _, checkPrefix_slots _, checkPrefix_now _⟩
    exact hout.trans (List.append_assoc ..)

end Sys2Proof.Machine
end

section
/-! O17 to O19. The checksum: the byte sum, what it detects (40_frame_codec.md R108), and the frame that carries it
(R101). -/

namespace Sys2Proof.Machine

/-- Replacing one byte changes the checksum by the difference of the two. -/
theorem checksum_set {f : List Byte} {i : Nat} (hi : i < f.length) (b : Byte) :
    checksum (f.set i b) + byteAt f i = checksum f + b := by
  induction f generalizing i with
  | nil => cases hi
  | cons a f ih =>
    cases i with
    | zero =>
      have ha : byteAt (a :: f) 0 = a := rfl
      rw [List.set_cons_zero, checksum_cons, checksum_cons, ha]
      ac_rfl
    | succ i =>
      rw [List.set_cons_succ, checksum_cons, checksum_cons, BitVec.add_assoc, BitVec.add_assoc,
        ← ih (Nat.lt_of_succ_lt_succ hi)]
      rfl

/-- Whichever single byte of an accepted frame is replaced, the frame is not accepted: a byte of the body changes the
computed checksum alone, and the last byte the received one alone. -/
theorem checksum_detects_set {f : List Byte} {i : Nat} {b : Byte} (hok : computedChecksum f = receivedChecksum f)
    (hi : i < f.length) (hb : b ≠ byteAt f i) : computedChecksum (f.set i b) ≠ receivedChecksum (f.set i b) := by
  obtain rfl | ⟨body, c, rfl⟩ := f.eq_nil_or_concat'
  · cases hi
  rw [computedChecksum_concat, receivedChecksum_concat] at hok
  by_cases hbody : i < body.length
  · rw [byteAt_append_left _ _ _ hbody] at hb
    rw [List.set_append_left _ _ hbody, computedChecksum_concat, receivedChecksum_concat]
    intro hset
    have hsum := checksum_set hbody b
    rw [hset, hok] at hsum
    exact hb ((BitVec.add_right_inj c).1 hsum).symm
  · obtain rfl : i = body.length := by
      rw [List.length_append, List.length_singleton] at hi
      omega
    rw [byteAt_append_length] at hb
    rw [List.set_append_right _ _ le_rfl, Nat.sub_self, List.set_cons_zero, computedChecksum_concat,
      receivedChecksum_concat, hok]
    exact hb.symm

/-- Flipping a bit changes the byte. -/
theorem xor_twoPow_ne (b : Byte) {k : Nat} (hk : k < 8) : b ^^^ BitVec.twoPow 8 k ≠ b := by
  intro h
  have hbit := congrArg (BitVec.getLsbD · k) h
  simp [hk] at hbit

/-- A frame with a bad checksum is discarded with a diagnostic (41_transaction.md R136). -/
theorem onFrame_discards {f : List Byte} (h5 : 5 ≤ f.length) (h512 : f.length ≤ 512)
    (hbad : computedChecksum f ≠ receivedChecksum f) (s : State) :
    onFrame f s = .next (s.raise (.checksumMismatch (computedChecksum f ++ receivedChecksum f))) := by
  rw [onFrame, if_pos ⟨h5, h512⟩, if_neg hbad]

/-- Settles O17: a flip replaces one byte by another; and the test reads only the body's sum mod 256. -/
theorem checksumDetectsEverySingleBitFlip : Obligations.ChecksumDetectsEverySingleBitFlip := by
  refine ⟨fun f i k s h5 h512 hok hi hk => ?_, fun body body' c hsum hok => ?_⟩
  · have hbad := checksum_detects_set hok hi (xor_twoPow_ne _ hk)
    exact ⟨_, onFrame_discards (by rwa [List.length_set]) (by rwa [List.length_set]) hbad s⟩
  · have hsame : checksum body = checksum body' :=
      BitVec.eq_of_toNat_eq (by rw [toNat_checksum, toNat_checksum, hsum])
    rw [computedChecksum_concat, receivedChecksum_concat] at hok ⊢
    exact hsame ▸ hok

/-- Reducing after every byte gives the sum reduced once. -/
theorem foldl_add_mod (bytes : List Byte) {acc : Nat} (hacc : acc < 256) :
    bytes.foldl (fun acc b => (acc + b.toNat) % 256) acc = (acc + (bytes.map BitVec.toNat).sum) % 256 := by
  induction bytes generalizing acc with
  | nil => simp [Nat.mod_eq_of_lt hacc]
  | cons b bytes ih =>
    rw [List.foldl_cons, ih (Nat.mod_lt _ (by decide)), List.map_cons, List.sum_cons]
    omega

/-- Settles O18: the byte is the sum reduced once, which is the running reduction from 0. -/
theorem checksumIsTheByteSum : Obligations.ChecksumIsTheByteSum := by
  intro bytes s
  refine ⟨checksum bytes, rfl, toNat_checksum bytes, ?_⟩
  rw [toNat_checksum, foldl_add_mod bytes (by decide), Nat.zero_add]

/-- Settles O19: the frame's length prefix, id, payload and checksum in turn. -/
theorem encodedFrameLayout : Obligations.EncodedFrameLayout := by
  intro id payload s hlen
  have hprefix := encodeFrame_prefix id payload hlen
  rw [toNat_be16] at hprefix
  have hlow := (byteAt (encodeFrame id payload) 1).isLt
  refine ⟨encodeFrame id payload, if_pos hlen, length_encodeFrame id payload, by omega, by omega, ?_, ?_, ?_⟩
  · rw [encodeFrame_id, toNat_requestId]
  · exact List.take_left
  · have hhead := length_frameHead id payload
    rw [encodeFrame, ← hhead, byteAt_append_length, List.take_left, toNat_checksum]

end Sys2Proof.Machine
end

section
/-! O21 to O23. The three answers of SEND (41_transaction.md R130 to R134): too long, no room, accepted. -/

namespace Sys2Proof.Machine

/-- The state an accepted SEND leaves: slot `k` registered, its acknowledgement and the frame emitted
(41_transaction.md R130). -/
def State.accept (s : State) (k : Nat) (id : CommandId) (p : List Byte) (tmo : Option Timeout) : State :=
  ((s.register k (expectation id p tmo s.now)).emit (.sendAck k)).emit (.tx (encodeFrame id p))

@[simp] theorem State.accept_q (s : State) (k : Nat) (id : CommandId) (p : List Byte) (tmo : Option Timeout) :
    (s.accept k id p tmo).q = s.q ++ [k] := rfl

@[simp] theorem State.accept_slots (s : State) (k : Nat) (id : CommandId) (p : List Byte) (tmo : Option Timeout) :
    (s.accept k id p tmo).slots = s.slots.set k (expectation id p tmo s.now) := rfl

@[simp] theorem State.accept_out (s : State) (k : Nat) (id : CommandId) (p : List Byte) (tmo : Option Timeout) :
    (s.accept k id p tmo).out = s.out ++ [.sendAck k, .tx (encodeFrame id p)] :=
  List.append_assoc ..

/-- The slot taken holds the expectation. -/
theorem State.accept_slot {s : State} {k : Nat} (hk : k < s.slots.length) (id : CommandId) (p : List Byte)
    (tmo : Option Timeout) : (s.accept k id p tmo).slots[k]? = some (expectation id p tmo s.now) :=
  List.getElem?_set_self hk

/-- The other slots are as before. -/
theorem State.accept_slot_ne {s : State} {j k : Nat} (hne : j ≠ k) (id : CommandId) (p : List Byte)
    (tmo : Option Timeout) : (s.accept k id p tmo).slots[j]? = s.slots[j]? :=
  List.getElem?_set_ne hne.symm

theorem execSend_tooLong {p : List Byte} (hlong : 508 < p.length) (id : CommandId) (tmo : Option Timeout) (s : State) :
    execSend id p tmo s = .next (s.emit (.sendNak .frameTooLarge)) := if_pos hlong

theorem execSend_full {p : List Byte} {s : State} (hlen : p.length ≤ 508) (hfull : s.q.length = s.slots.length)
    (id : CommandId) (tmo : Option Timeout) : execSend id p tmo s = .next (s.emit (.sendNak .queueFull)) := by
  rw [execSend, if_neg (Nat.not_lt.2 hlen), if_pos hfull]

/-- A queue with room: SEND is accepted into the least free slot (41_transaction.md R130, R132). -/
theorem execSend_accepts {p : List Byte} {s : State} (h : s.QueueInv) (hlen : p.length ≤ 508)
    (hroom : s.q.length ≠ s.slots.length) (id : CommandId) (tmo : Option Timeout) :
    ∃ k, s.leastFree = some k ∧ execSend id p tmo s = .next (s.accept k id p tmo) := by
  obtain ⟨k, hk⟩ := State.leastFree_isSome h hroom
  refine ⟨k, hk, ?_⟩
  rw [execSend, if_neg (Nat.not_lt.2 hlen), if_neg hroom, hk]
  rfl

/-- The deadline in numbers (41_transaction.md R133). -/
theorem toNat_deadlineOf (now : Time) (ticks : Timeout) :
    (deadlineOf now ticks).toNat = (now.toNat + ticks.toNat) % 2 ^ 32 := by
  rw [deadlineOf, BitVec.toNat_add, BitVec.toNat_setWidth_of_le (by decide)]

/-- Settles O21: the length is the first thing SEND tests. -/
theorem sendOfALongPayloadIsRejected : Obligations.SendOfALongPayloadIsRejected :=
  fun id _ timeout s hlong => execSend_tooLong hlong id timeout s

/-- Settles O22: where every slot is busy the queue is full. -/
theorem sendOnAFullQueueIsRejected : Obligations.SendOnAFullQueueIsRejected := by
  intro id payload timeout s h hlen hbusy
  obtain ⟨_, hfull⟩ := queueIsFullExactlyWhenNoSlotIsFree s h
  exact execSend_full hlen (hfull.2 hbusy) id timeout

/-- Settles O23: a free slot means that the queue has room, so SEND is accepted into the least free slot. -/
theorem acceptedSendRegistersAndTransmits : Obligations.AcceptedSendRegistersAndTransmits := by
  intro id payload timeout s h hlen ⟨j, hj, hfree⟩
  obtain ⟨_, hfull⟩ := queueIsFullExactlyWhenNoSlotIsFree s h
  have hroom : s.q.length ≠ s.slots.length := fun hq => Bool.false_ne_true (hfree.symm.trans (hfull.1 hq j hj))
  obtain ⟨k, hleast, hsend⟩ := execSend_accepts h.queue hlen hroom id timeout
  obtain ⟨hk, hidle, hbelow⟩ := State.leastFree_some hleast
  refine ⟨k, expectation id payload timeout s.now, _, hsend, hk, hidle, hbelow, State.accept_slot hk .., rfl,
    toNat_responseId id, decide_eq_true_iff, toNat_deadlineOf .., fun i hi => State.accept_slot_ne hi .., ?_⟩
  rw [← State.accept_out]
  rfl

end Sys2Proof.Machine
end

section
/-! O24 to O26. ON_FRAME discards a bad frame, resolves the oldest expectation with a valid one, and dispatches a valid
one on an empty queue (41_transaction.md R135 to R141). -/

namespace Sys2Proof.Machine

/-- A valid frame consumes the expectation at the head of the queue. -/
theorem onFrame_resolves {f : List Byte} {s : State} {k : Nat} {rest : List Nat} {e : Slot} (h5 : 5 ≤ f.length)
    (h512 : f.length ≤ 512) (hok : computedChecksum f = receivedChecksum f) (hq : s.q = k :: rest)
    (he : s.slots[k]? = some e) : onFrame f s = .next (resolveHead f k e rest s) := by
  rw [onFrame, if_pos ⟨h5, h512⟩, if_pos hok, acceptFrame, hq]
  dsimp only
  rw [he]

/-- A valid frame on an empty queue is dispatched by its id. -/
theorem onFrame_dispatches {f : List Byte} {s : State} (h5 : 5 ≤ f.length) (h512 : f.length ≤ 512)
    (hok : computedChecksum f = receivedChecksum f) (hq : s.q = []) :
    onFrame f s = .next (dispatchUnsolicited f s) := by
  rw [onFrame, if_pos ⟨h5, h512⟩, if_pos hok, acceptFrame, hq]

/-- A matching frame for a command without a payload (41_transaction.md R138). -/
theorem resultFor_whole {e : Slot} {rid : Byte} (hid : rid = e.expId) (hstatus : e.statusExp = false) (p : List Byte) :
    resultFor e rid p = .ok rid none p := by
  rw [resultFor, if_pos hid, hstatus]
  rfl

/-- A frame with another id (41_transaction.md R139). -/
theorem resultFor_mismatch {e : Slot} {rid : Byte} (hid : rid ≠ e.expId) (p : List Byte) :
    resultFor e rid p = .idMismatch rid := if_neg hid

/-- A matching frame gives Ok, with or without a status. -/
theorem resultFor_match {e : Slot} {rid : Byte} (hid : rid = e.expId) (p : List Byte) :
    ∃ status payload, resultFor e rid p = .ok rid status payload := by
  cases hstatus : e.statusExp with
  | false => exact ⟨_, _, resultFor_whole hid hstatus p⟩
  | true => exact ⟨_, _, resultFor_status hid.symm hstatus p⟩

/-- The status byte of a frame is its fourth byte (41_transaction.md R138). -/
theorem byteAt_framePayload {f : List Byte} (h5 : 5 ≤ f.length) : byteAt (framePayload f) 0 = byteAt f 3 := by
  have hend : f.length - 1 = 3 + (f.length - 4) := by omega
  rw [framePayload, hend, byteAt_slice _ _ _ _ (by omega)]

/-- The payload behind the status byte. -/
theorem slice_framePayload (f : List Byte) :
    slice (framePayload f) 1 (framePayload f).length = slice f 4 (f.length - 1) := by
  simp only [framePayload, slice, List.drop_take, List.drop_drop, List.length_take, List.length_drop, List.take_take]
  congr 1
  omega

/-- Freeing a slot leaves the others. -/
theorem State.freeSlot_slot_ne {j k : Nat} (hne : j ≠ k) (s : State) : (s.freeSlot k).slots[j]? = s.slots[j]? := by
  simp [hne.symm]

theorem State.busyAt_freeSlot_self (s : State) (k : Nat) : (s.freeSlot k).busyAt k = false := by simp

/-- Settles O24: the test compares the body's sum with the last byte, and the info holds both. -/
theorem badChecksumFrameIsDiscarded : Obligations.BadChecksumFrameIsDiscarded := by
  intro body c s h4 h511 hne
  have hlen : (body ++ [c]).length = body.length + 1 := List.length_append
  have hbad : computedChecksum (body ++ [c]) ≠ receivedChecksum (body ++ [c]) := by
    rw [computedChecksum_concat, receivedChecksum_concat]
    intro heq
    exact hne (by rw [← toNat_checksum, heq])
  refine ⟨_, ?_, onFrame_discards (by omega) (by omega) hbad s⟩
  rw [toNat_be16, computedChecksum_concat, receivedChecksum_concat, toNat_checksum]

/-- Settles O25: the head of the queue is a slot of the arena, and the frame consumes it. -/
theorem validFrameResolvesTheOldest : Obligations.ValidFrameResolvesTheOldest := by
  intro f k rest s h h5 h512 hok hq
  obtain ⟨e, he, _⟩ := State.slot_of_mem_q h.queue (show k ∈ s.q by simp [hq])
  refine ⟨e, resultFor e (byteAt f 2) (framePayload f), _, he, onFrame_resolves h5 h512 hok hq he,
    fun hid hstatus => ?_, fun hid hstatus => resultFor_whole hid hstatus _, fun hid => resultFor_mismatch hid _, rfl,
    State.busyAt_freeSlot_self _ k, fun j hj => State.freeSlot_slot_ne hj _, List.length_modify ..⟩
  rw [resultFor_status hid.symm hstatus, byteAt_framePayload h5, slice_framePayload]

/-- Settles O26: the id decides between the telegram decoder and the orphan diagnostic. -/
theorem unmatchedFramesOnAnEmptyQueue : Obligations.UnmatchedFramesOnAnEmptyQueue := by
  intro f s h5 h512 hok hq
  have hframe : exec (.onFrame f) s = .next (dispatchUnsolicited f s) := onFrame_dispatches h5 h512 hok hq
  rw [hframe]
  rcases dispatchUnsolicited_cases f s with ⟨hid, heq⟩ | ⟨hid, heq⟩
  · exact ⟨fun _ => ⟨_, rfl, heq ▸ rfl⟩, fun hne => absurd hid hne⟩
  · exact ⟨fun hnotify => absurd hnotify hid, fun _ => heq ▸ rfl⟩

end Sys2Proof.Machine
end

section
/-! O28. Frames resolve commands in the order they were sent (41_transaction.md R147). -/

namespace Sys2Proof.Machine

/-- The expected ids of two commands are equal exactly when the commands are (41_transaction.md R131). -/
theorem responseId_inj {a b : CommandId} : responseId a = responseId b ↔ a = b := by
  rw [← BitVec.toNat_inj, toNat_responseId, toNat_responseId, Nat.add_right_cancel_iff, BitVec.toNat_inj]

/-- Two SENDs on an empty queue with two free slots take two slots, which queue in the order sent. -/
theorem runAll_send_send {idA idB : CommandId} {pA pB : List Byte} (tA tB : Option Timeout) {s : State} (h : s.Inv)
    (hq : s.q = []) (htwo : 2 ≤ s.slots.length) (hA : pA.length ≤ 508) (hB : pB.length ≤ 508) :
    ∃ a b, a ≠ b ∧ a < s.slots.length ∧
      runAll [.send idA pA tA, .send idB pB tB] s = .next ((s.accept a idA pA tA).accept b idB pB tB) := by
  obtain ⟨a, ha, hsendA⟩ := execSend_accepts h.queue hA (by rw [hq, List.length_nil]; omega) idA tA
  obtain ⟨hlt, _, _⟩ := State.leastFree_some ha
  have hinv : (s.accept a idA pA tA).Inv := execSend_inv h hsendA
  have hroom : (s.accept a idA pA tA).q.length ≠ (s.accept a idA pA tA).slots.length := by
    rw [State.accept_q, State.accept_slots, hq, List.length_set, List.nil_append, List.length_singleton]
    omega
  obtain ⟨b, hb, hsendB⟩ := execSend_accepts hinv.queue hB hroom idB tB
  obtain ⟨_, hidle, _⟩ := State.leastFree_some hb
  have hbusy : (s.accept a idA pA tA).busyAt a = true := (State.mem_q_iff hinv.queue a).1 (by simp)
  have hfirst : exec (.send idA pA tA) s = .next (s.accept a idA pA tA) := hsendA
  refine ⟨a, b, ?_, hlt, (runAll_cons _ hfirst).trans ((runAll_singleton _ _).trans hsendB)⟩
  rintro rfl
  exact Bool.false_ne_true (hidle.symm.trans hbusy)

/-- Settles O28: the frame meets the first command at the head of the queue, and its id is the second's. -/
theorem framesResolveCommandsInSendOrder : Obligations.FramesResolveCommandsInSendOrder := by
  intro idA idB pA pB tA tB f s h hq htwo hA hB h5 h512 hok hid
  obtain ⟨a, b, hne, ha, hrun⟩ := runAll_send_send (idA := idA) (idB := idB) tA tB h hq htwo hA hB
  have hframe := onFrame_resolves (s := (s.accept a idA pA tA).accept b idB pB tB) (k := a) (rest := [b]) h5 h512 hok
    (by simp [hq]) ((State.accept_slot_ne hne ..).trans (State.accept_slot ha ..))
  have hrid : byteAt f 2 = responseId idB := BitVec.eq_of_toNat_eq (hid.trans (toNat_responseId idB).symm)
  refine ⟨a, b, resultFor (expectation idA pA tA s.now) (byteAt f 2) (framePayload f), _, hne,
    (runAll_append [.onFrame f] hrun).trans ((runAll_singleton _ _).trans hframe), ?_, rfl, fun hids => ?_,
    fun hids => ?_⟩
  · simp [resolveHead_eq]
  · exact resultFor_mismatch (fun heq => hids (responseId_inj.1 (hrid.symm.trans heq)).symm) _
  · exact resultFor_match (e := expectation idA pA tA s.now) (hrid.trans (responseId_inj.2 hids.symm)) _

end Sys2Proof.Machine
end

section
/-! O29 and O30. EXPIRE of one slot, and TICK, which expires every slot whose deadline is reached (41_transaction.md
R143, R144). -/

namespace Sys2Proof.Machine

/-- Settles O30: without duplicates, filtering a slot out of the queue erases it. -/
theorem expireRemovesItsSlot : Obligations.ExpireRemovesItsSlot := by
  intro k s h hk
  refine ⟨s.expire k, if_pos hk, ?_, State.busyAt_freeSlot_self _ k, fun j hj => State.freeSlot_slot_ne hj s,
    List.length_modify ..⟩
  rw [h.queue.1.erase_eq_filter]
  rfl

/-- The state after TICK (41_transaction.md R143). -/
def State.ticked (s : State) : State := expireAll s.q { s with now := s.now + 1#32 }

theorem execTick_ticked {s : State} (h : s.QueueInv) : execTick s = .next s.ticked :=
  execTick_eq (slots_lt_of_queueInv h)

/-- TICK's loop writes the arena, the queue and the events only. -/
theorem expireAll_frame (ks : List Nat) (s : State) :
    expireAll ks s =
      { s with slots := (expireAll ks s).slots, q := (expireAll ks s).q, out := (expireAll ks s).out } := by
  obtain ⟨hbuf, hcnt, hexp, hnow, hport, hret, _⟩ := expireAll_spec ks s
  rw [← hbuf, ← hcnt, ← hexp, ← hnow, ← hport, ← hret]

/-- TICK writes the time besides. -/
theorem State.ticked_frame (s : State) :
    s.ticked = { s with now := s.now + 1#32, slots := s.ticked.slots, q := s.ticked.q, out := s.ticked.out } :=
  expireAll_frame _ _

@[simp] theorem State.ticked_now (s : State) : s.ticked.now = s.now + 1#32 := by rw [State.ticked_frame]

/-- The slots whose deadline the new time has reached leave the queue. -/
theorem State.ticked_q (s : State) : s.ticked.q = s.q.filter (fun k => !s.expiredAt (s.now + 1#32) k) := by
  obtain ⟨_, _, _, _, _, _, hq, _⟩ := expireAll_spec s.q { s with now := s.now + 1#32 }
  refine hq.trans (List.filter_congr fun k hk => ?_)
  rw [List.contains_iff_mem.2 hk, Bool.true_and]
  rfl

/-- They are timed out in queue order. -/
theorem State.ticked_out (s : State) :
    s.ticked.out =
      s.out ++ (s.q.filter (fun k => s.expiredAt (s.now + 1#32) k)).map (fun k => .result k .timeout) := by
  obtain ⟨_, _, _, _, _, _, _, hout, _⟩ := expireAll_spec s.q { s with now := s.now + 1#32 }
  exact hout

/-- The other slots keep their fields. -/
theorem State.ticked_slot {s : State} {k : Nat} (hk : k ∉ s.q ∨ s.expiredAt (s.now + 1#32) k = false) :
    s.ticked.slots[k]? = s.slots[k]? := by
  obtain ⟨_, _, _, _, _, _, _, _, hslots⟩ := expireAll_spec s.q { s with now := s.now + 1#32 }
  refine (hslots k).trans ?_
  cases hs : s.slots[k]? with
  | none => rfl
  | some e =>
    have hexp : s.expiredAt (s.now + 1#32) k = isExpired (s.now + 1#32) e.deadline := by rw [State.expiredAt, hs]
    rw [hexp] at hk
    rcases hk with hk | hk <;> simp [hk]

/-- Settles O29: the fields TICK's loop writes, one each; a slot that has left the queue is free by the invariants. -/
theorem tickExpiresReachedDeadlines : Obligations.TickExpiresReachedDeadlines := by
  intro s h
  have hinv : s.ticked.Inv := tick_inv h
  refine ⟨s.ticked, execTick_ticked h.queue, ?_, s.ticked_q, s.ticked_out, fun k _ hexp => ?_,
    fun k hk => State.ticked_slot hk, ?_⟩
  · rw [State.ticked_now, BitVec.toNat_add]
    rfl
  · rw [← Bool.not_eq_true, ← State.mem_q_iff hinv.queue, State.ticked_q]
    simp [hexp]
  · rw [State.ticked_now, ← State.ticked_frame]

end Sys2Proof.Machine
end

section
/-! O32. What one host-port operation other than RESET can do to one slot, and the balance of acceptances and results it
gives along a run (41_transaction.md R146). -/

namespace Sys2Proof.Machine

/-- The event accepts a SEND into slot `k` or delivers a result for it. -/
def Event.concerns (k : Nat) (e : Event) : Bool := e.isAckOf k || e.isResultOf k

@[simp] theorem Event.concerns_sendAck (k j : Nat) : (Event.sendAck j).concerns k = (j == k) := Bool.or_false _
@[simp] theorem Event.concerns_result (k j : Nat) (r : Result) : (Event.result j r).concerns k = (j == k) :=
  Bool.false_or _
@[simp] theorem Event.concerns_sendNak (k : Nat) (c : NakCode) : (Event.sendNak c).concerns k = false := rfl
@[simp] theorem Event.concerns_tx (k : Nat) (f : List Byte) : (Event.tx f).concerns k = false := rfl
@[simp] theorem Event.concerns_telegram (k : Nat) (t : Telegram) : (Event.telegram t).concerns k = false := rfl
@[simp] theorem Event.concerns_diag (k : Nat) (d : Diagnostic) : (Event.diag d).concerns k = false := rfl

/-- What a step from `s` to `t` does to slot `k`: nothing, or it accepts a SEND into it, or it delivers a result for it.
A timeout is delivered only by an advance of the time that reaches the deadline. -/
inductive State.SlotStep (k : Nat) (s t : State) : Prop
  | keeps (hq : k ∈ t.q ↔ k ∈ s.q) (hslot : k ∈ s.q → t.slots[k]? = s.slots[k]?)
      (hquiet : ∀ e ∈ newEvents s t, e.concerns k = false)
  | accepts (hbefore : k ∉ s.q) (hafter : k ∈ t.q) (hack : (newEvents s t).countP (Event.isAckOf k) = 1)
      (hresult : (newEvents s t).countP (Event.isResultOf k) = 0)
  | resolves (r : Result) (hbefore : k ∈ s.q) (hafter : k ∉ t.q) (hmem : .result k r ∈ newEvents s t)
      (htimeout : r = .timeout → t.now = s.now + 1#32 ∧ s.expiredAt (s.now + 1#32) k = true)
      (hack : (newEvents s t).countP (Event.isAckOf k) = 0)
      (hresult : (newEvents s t).countP (Event.isResultOf k) = 1)

/-- Neither acknowledgement nor result among events that do not concern the slot. -/
theorem countP_of_quiet {k : Nat} {es : List Event} (h : ∀ e ∈ es, e.concerns k = false) :
    es.countP (Event.isAckOf k) = 0 ∧ es.countP (Event.isResultOf k) = 0 := by
  simp only [Event.concerns, Bool.or_eq_false_iff] at h
  exact ⟨List.countP_eq_zero.2 fun e he => by simp [h e he], List.countP_eq_zero.2 fun e he => by simp [h e he]⟩

/-- A step that keeps the queue and the arena and emits nothing that concerns the slot. -/
theorem State.SlotStep.of_quiet {k : Nat} {s t : State} {es : List Event} (hq : t.q = s.q) (hslots : t.slots = s.slots)
    (hout : t.out = s.out ++ es) (hquiet : ∀ e ∈ es, e.concerns k = false) : State.SlotStep k s t :=
  .keeps (hq ▸ Iff.rfl) (fun _ => hslots ▸ rfl) (newEvents_eq hout ▸ hquiet)

/-- The decoder emits telegrams and diagnostics only (42_telegram.md R173). -/
theorem telegramEvents_quiet (order : MaskOrder) (p : List Byte) (k : Nat) :
    ∀ e ∈ telegramEvents order p, e.concerns k = false := by
  intro e he
  unfold telegramEvents at he
  split at he
  · rw [List.mem_singleton.1 he, Event.concerns_diag]
  · simp only [List.mem_append, List.mem_singleton, List.mem_ite_nil_right] at he
    obtain (rfl | ⟨_, rfl⟩) | ⟨_, rfl⟩ := he
    · exact Event.concerns_telegram k _
    · exact Event.concerns_diag k _
    · exact Event.concerns_diag k _

theorem execSend_slotStep {id : CommandId} {p : List Byte} {tmo : Option Timeout} {s t : State} (hs : s.QueueInv)
    (h : execSend id p tmo s = .next t) (k : Nat) : State.SlotStep k s t := by
  rcases execSend_cases h with ⟨_, rfl⟩ | ⟨_, _, rfl⟩ | ⟨j, _, _, hleast, rfl⟩
  · exact .of_quiet rfl rfl rfl (by simp)
  · exact .of_quiet rfl rfl rfl (by simp)
  · change State.SlotStep k s (s.accept j id p tmo)
    have hnew : newEvents s (s.accept j id p tmo) = _ := newEvents_eq (State.accept_out ..)
    obtain ⟨_, hidle, _⟩ := State.leastFree_some hleast
    by_cases hk : k = j
    · subst hk
      refine .accepts (fun hmem => ?_) (by simp) ?_ ?_
      · exact Bool.false_ne_true (hidle.symm.trans ((State.mem_q_iff hs k).1 hmem))
      · rw [hnew]
        simp [Event.isAckOf]
      · rw [hnew]
        rfl
    · refine .keeps (by simp [hk]) (fun _ => State.accept_slot_ne hk ..) ?_
      rw [hnew]
      simp [Ne.symm hk]

theorem resultFor_ne_timeout (e : Slot) (rid : Byte) (p : List Byte) : resultFor e rid p ≠ .timeout := by
  unfold resultFor
  split_ifs <;> exact nofun

theorem onFrame_slotStep {f : List Byte} {s t : State} (hs : s.QueueInv) (h : onFrame f s = .next t) (k : Nat) :
    State.SlotStep k s t := by
  obtain ⟨_, _, ⟨_, rfl⟩ | ⟨_, _, rfl⟩ | ⟨j, rest, e, _, hq, _, rfl⟩⟩ := onFrame_cases h
  · exact .of_quiet rfl rfl rfl (by simp)
  · obtain ⟨es, heq, hes⟩ := dispatchUnsolicited_eq f s
    rw [heq]
    refine .of_quiet rfl rfl rfl ?_
    rcases hes with rfl | rfl
    · exact telegramEvents_quiet _ _ k
    · simp
  · have hnew : newEvents s (resolveHead f j e rest s) = _ := newEvents_eq rfl
    have hnodup := hs.1
    rw [hq, List.nodup_cons] at hnodup
    by_cases hk : k = j
    · subst hk
      refine .resolves _ (by simp [hq]) hnodup.1 (hnew ▸ List.mem_singleton_self _)
        (fun ht => absurd ht (resultFor_ne_timeout _ _ _)) ?_ ?_
      · rw [hnew]
        rfl
      · rw [hnew]
        simp [Event.isResultOf]
    · refine .keeps ?_ (fun _ => State.freeSlot_slot_ne hk _) ?_
      · rw [resolveHead_eq, hq, List.mem_cons, or_iff_right hk]
      · rw [hnew]
        simp [Ne.symm hk]

/-- Before ON_FRAME, FEED_BYTE writes the parser alone. -/
theorem execFeedByte_slotStep {b : Byte} {s t : State} (hs : s.QueueInv) (h : execFeedByte b s = .next t) (k : Nat) :
    State.SlotStep k s t := by
  have hbuffer : State.SlotStep k s (bufferByte b s) :=
    .of_quiet rfl rfl (List.append_nil _).symm (fun _ he => nomatch he)
  obtain ⟨_, ⟨_, _, rfl⟩ | ⟨_, _, rfl⟩ | ⟨_, _, _, rfl⟩ | ⟨_, _, _, hframe⟩⟩ := execFeedByte_cases h
  · exact hbuffer
  · obtain ⟨es, hout, hes⟩ := checkPrefix_out (bufferByte b s)
    refine .of_quiet (checkPrefix_q _) (checkPrefix_slots _) hout fun e he => ?_
    obtain ⟨l, rfl⟩ := hes e he
    exact Event.concerns_diag k _
  · exact hbuffer
  · cases onFrame_slotStep (s := (bufferByte b s).clearParser) hs hframe k with
    | keeps hq hslot hquiet => exact .keeps hq hslot hquiet
    | accepts hbefore hafter hack hresult => exact .accepts hbefore hafter hack hresult
    | resolves r hbefore hafter hmem htimeout hack hresult =>
      exact .resolves r hbefore hafter hmem htimeout hack hresult

/-- TICK's events: results only, one for each slot that expires. -/
theorem countP_timeouts (k : Nat) (ks : List Nat) :
    (ks.map fun j => Event.result j .timeout).countP (Event.isAckOf k) = 0 ∧
      (ks.map fun j => Event.result j .timeout).countP (Event.isResultOf k) = ks.count k := by
  rw [List.countP_map, List.countP_map]
  exact ⟨List.countP_eq_zero.2 fun _ _ => Bool.false_ne_true, rfl⟩

theorem execTick_slotStep {s t : State} (hs : s.QueueInv) (h : execTick s = .next t) (k : Nat) :
    State.SlotStep k s t := by
  obtain rfl := execTick_cases h
  change State.SlotStep k s s.ticked
  have hnew := newEvents_eq s.ticked_out
  by_cases hk : k ∈ s.q ∧ s.expiredAt (s.now + 1#32) k = true
  · obtain ⟨hmem, hexp⟩ := hk
    have hfilter : k ∈ s.q.filter (fun j => s.expiredAt (s.now + 1#32) j) := List.mem_filter.2 ⟨hmem, hexp⟩
    obtain ⟨hack, hresult⟩ := countP_timeouts k (s.q.filter fun j => s.expiredAt (s.now + 1#32) j)
    refine .resolves .timeout hmem (by simp [State.ticked_q, hexp]) ?_ (fun _ => ⟨s.ticked_now, hexp⟩) (hnew ▸ hack) ?_
    · rw [hnew]
      exact List.mem_map_of_mem hfilter
    · rw [hnew, hresult]
      exact List.count_eq_one_of_mem (hs.1.filter _) hfilter
  · rw [not_and, Bool.not_eq_true] at hk
    refine .keeps ?_ (fun hmem => State.ticked_slot (.inr (hk hmem))) ?_
    · rw [State.ticked_q, List.mem_filter]
      exact ⟨And.left, fun hmem => ⟨hmem, by rw [hk hmem]; rfl⟩⟩
    · rw [hnew]
      intro e he
      obtain ⟨j, hj, rfl⟩ := List.mem_map.1 he
      obtain ⟨hmem, hexp⟩ := List.mem_filter.1 hj
      have hne : j ≠ k := fun hjk => by
        subst hjk
        exact Bool.false_ne_true ((hk hmem).symm.trans hexp)
      simp [hne]

/-- Every host-port operation but RESET keeps slot `k`, accepts a SEND into it, or resolves it. -/
theorem exec_slotStep {i : Instr} {s t : State} (hs : s.QueueInv) (hhost : i.isHostOp = true) (hreset : i ≠ .reset)
    (h : exec i s = .next t) (k : Nat) : State.SlotStep k s t := by
  cases i with
  | feedByte b => exact execFeedByte_slotStep hs h k
  | send id p tmo => exact execSend_slotStep hs h k
  | tick => exact execTick_slotStep hs h k
  | reset => exact absurd rfl hreset
  | illegal w => exact next_inj h ▸ .of_quiet rfl rfl rfl (by simp)
  | checksum bytes => cases hhost
  | encode id p => cases hhost
  | onFrame f => cases hhost
  | expire j => cases hhost
  | decodeTelegram p => cases hhost

/-- One step balances: an acceptance makes the slot pending, and a result ends that. -/
theorem State.SlotStep.balance {k : Nat} {s t : State} (h : State.SlotStep k s t) :
    (newEvents s t).countP (Event.isAckOf k) + s.pending k =
      (newEvents s t).countP (Event.isResultOf k) + t.pending k := by
  unfold State.pending
  cases h with
  | keeps hq hslot hquiet =>
    obtain ⟨hack, hresult⟩ := countP_of_quiet hquiet
    simp [hack, hresult, hq]
  | accepts hbefore hafter hack hresult => simp [hack, hresult, hbefore, hafter]
  | resolves r hbefore hafter hmem htimeout hack hresult => simp [hack, hresult, hbefore, hafter]

/-- The events of two steps, or runs, one after the other. -/
theorem newEvents_append {s t u : State} (hst : s.out <+: t.out) (htu : t.out <+: u.out) :
    newEvents s u = newEvents s t ++ newEvents t u := by
  obtain ⟨es, hes⟩ := hst
  obtain ⟨es', hes'⟩ := htu
  rw [newEvents_eq hes.symm, newEvents_eq hes'.symm]
  exact newEvents_eq (by rw [← hes', ← hes, List.append_assoc])

theorem runAll_out_prefix {ops : List Instr} {s u : State} (h : runAll ops s = .next u) : s.out <+: u.out := by
  induction ops generalizing s with
  | nil => rw [next_inj h]
  | cons i ops ih =>
    obtain ⟨t, ht, hrest⟩ := runAll_cons_next h
    exact (eventsAreOnlyAppended i s t ht).trans (ih hrest)

theorem newEvents_self (s : State) : newEvents s s = [] := newEvents_eq (List.append_nil _).symm

/-- A run's events: those of its first operation, then those of the rest. -/
theorem newEvents_cons {i : Instr} {ops : List Instr} {s t u : State} (ht : exec i s = .next t)
    (hrest : runAll ops t = .next u) : newEvents s u = newEvents s t ++ newEvents t u :=
  newEvents_append (eventsAreOnlyAppended i s t ht) (runAll_out_prefix hrest)

/-- Settles O32, by induction on the operations: every one of them balances. -/
theorem exactlyOneResultForEachAcceptance : Obligations.ExactlyOneResultForEachAcceptance := by
  intro ops
  induction ops with
  | nil =>
    intro s t k _ _ hrun
    rw [next_inj hrun, newEvents_self]
    rfl
  | cons i ops ih =>
    intro s u k h hops hrun
    obtain ⟨⟨hhost, hreset⟩, hrest⟩ := List.forall_mem_cons.1 hops
    obtain ⟨t, ht, hrun'⟩ := runAll_cons_next hrun
    have hfirst := (exec_slotStep h.queue hhost hreset ht k).balance
    have hlater := ih t u k (exec_inv h ht) hrest hrun'
    rw [newEvents_cons ht hrun', List.countP_append, List.countP_append]
    omega

end Sys2Proof.Machine
end

section
/-! O31. An expectation no frame resolves times out on its tick (41_transaction.md R145): while it waits, each TICK
takes one from its remaining ticks, and it expires on the TICK that finds at most one left. -/

namespace Sys2Proof.Machine

/-- Slot `k` is pending with `n` ticks left to its deadline (10_state.md R28). -/
def State.Waits (s : State) (k n : Nat) : Prop :=
  k ∈ s.q ∧ ∃ e, s.slots[k]? = some e ∧ remainingTicks s.now e.deadline = n

/-- A SEND registers as many ticks as its timeout has (41_transaction.md R133). -/
theorem remainingTicks_deadlineOf_eq (now : Time) (ticks : Timeout) :
    remainingTicks now (deadlineOf now ticks) = ticks.toNat := by
  have hticks := ticks.isLt
  unfold remainingTicks deadlineOf
  bv_omega

/-- The next tick reaches the deadline exactly when at most one is left. -/
theorem isExpired_succ_iff {now deadline : Time} (h : remainingTicks now deadline < 2 ^ 31) :
    isExpired (now + 1#32) deadline = true ↔ remainingTicks now deadline ≤ 1 := by
  unfold remainingTicks at h ⊢
  rw [isExpired, decide_eq_true_iff]
  bv_omega

theorem remainingTicks_succ {now deadline : Time} (h : 1 ≤ remainingTicks now deadline) :
    remainingTicks (now + 1#32) deadline = remainingTicks now deadline - 1 := by
  unfold remainingTicks at h ⊢
  bv_omega

theorem State.Waits.expiredAt_succ_iff {s : State} {k n : Nat} (h : s.Waits k n) (hs : s.Inv) :
    s.expiredAt (s.now + 1#32) k = true ↔ n ≤ 1 := by
  obtain ⟨hk, e, he, rfl⟩ := h
  obtain ⟨e', he', hbusy⟩ := State.slot_of_mem_q hs.queue hk
  obtain rfl : e = e' := Option.some.inj (he.symm.trans he')
  rw [State.expiredAt, he]
  exact isExpired_succ_iff (hs.timer e (List.mem_of_getElem? he) hbusy)

/-- An operation no frame of which resolves slot `k`, and which is not the TICK that reaches its deadline, leaves it
waiting, without a result. -/
theorem exec_waits {i : Instr} {s t : State} {k n : Nat} (hs : s.Inv) (hhost : i.isHostOp = true) (hreset : i ≠ .reset)
    (ht : exec i s = .next t) (hwait : s.Waits k n) (hfew : [i].count .tick < max n 1)
    (hnone : ∀ r, .result k r ∈ newEvents s t → r = .timeout) :
    t.Waits k (n - [i].count .tick) ∧ ∀ r, .result k r ∉ newEvents s t := by
  have hlate : i = .tick → ¬ n ≤ 1 := by
    rintro rfl
    rw [List.count_singleton_self] at hfew
    omega
  cases exec_slotStep hs.queue hhost hreset ht k with
  | accepts hbefore => exact absurd hwait.1 hbefore
  | resolves r hbefore hafter hmem htimeout =>
    obtain ⟨hnow, hexp⟩ := htimeout (hnone r hmem)
    have hreached := (hwait.expiredAt_succ_iff hs).1 hexp
    have hsame := exec_now ht (fun htick => hlate htick hreached) hreset
    exact absurd (hsame.symm.trans hnow) (by bv_omega)
  | keeps hq hslot hquiet =>
    obtain ⟨hk, e, he, hn⟩ := hwait
    refine ⟨⟨hq.2 hk, e, (hslot hk).trans he, ?_⟩, fun r hr => ?_⟩
    · by_cases htick : i = .tick
      · subst htick
        have hleft := hlate rfl
        rw [execTick_now ht, List.count_singleton_self, remainingTicks_succ (by omega), hn]
      · rw [exec_now ht htick hreset, hn, List.count_singleton, if_neg (by simpa using htick), Nat.sub_zero]
    · simpa using hquiet _ hr

/-- The same along a run, by induction on the operations. -/
theorem runAll_waits {ops : List Instr} {s u : State} {k n : Nat} (hs : s.Inv)
    (hops : ∀ i ∈ ops, i.isHostOp = true ∧ i ≠ .reset) (hrun : runAll ops s = .next u) (hwait : s.Waits k n)
    (hfew : ops.count .tick < max n 1) (hnone : ∀ r, .result k r ∈ newEvents s u → r = .timeout) :
    u.Inv ∧ u.Waits k (n - ops.count .tick) ∧ ∀ r, .result k r ∉ newEvents s u := by
  induction ops generalizing s n with
  | nil =>
    obtain rfl := next_inj hrun
    rw [newEvents_self]
    exact ⟨hs, hwait, fun _ => List.not_mem_nil⟩
  | cons i ops ih =>
    obtain ⟨⟨hhost, hreset⟩, hrest⟩ := List.forall_mem_cons.1 hops
    obtain ⟨t, ht, hrun'⟩ := runAll_cons_next hrun
    have hcount : (i :: ops).count .tick = [i].count .tick + ops.count .tick := List.count_append (l₁ := [i])
    rw [hcount] at hfew
    rw [newEvents_cons ht hrun'] at hnone ⊢
    obtain ⟨hwait', hfirst⟩ := exec_waits hs hhost hreset ht hwait (by omega)
      fun r hr => hnone r (List.mem_append_left _ hr)
    obtain ⟨hinv, hwaits, hlater⟩ := ih (exec_inv hs ht) hrest hrun' hwait' (by omega)
      fun r hr => hnone r (List.mem_append_right _ hr)
    rw [Nat.sub_sub, ← hcount] at hwaits
    exact ⟨hinv, hwaits, fun r hr => (List.mem_append.1 hr).elim (hfirst r) (hlater r)⟩

/-- The slot a SEND is acknowledged in waits for the timeout. -/
theorem execSend_waits {id : CommandId} {p : List Byte} {tmo : Option Timeout} {s t : State} {k : Nat}
    (h : execSend id p tmo s = .next t) (hack : .sendAck k ∈ newEvents s t) :
    t.Waits k (timeoutTicks tmo).toNat := by
  rcases execSend_cases h with ⟨_, rfl⟩ | ⟨_, _, rfl⟩ | ⟨j, _, _, hleast, rfl⟩
  · rw [newEvents_eq rfl] at hack
    simp at hack
  · rw [newEvents_eq rfl] at hack
    simp at hack
  · change .sendAck k ∈ newEvents s (s.accept j id p tmo) at hack
    rw [newEvents_eq (State.accept_out ..)] at hack
    obtain rfl : k = j := by simpa using hack
    obtain ⟨hk, _, _⟩ := State.leastFree_some hleast
    exact ⟨List.mem_append_right _ (List.mem_singleton_self k), _, State.accept_slot hk ..,
      remainingTicks_deadlineOf_eq ..⟩

/-- A slot with at most one tick left is timed out by the next TICK. -/
theorem exec_tick_times_out {s : State} {k n : Nat} (hs : s.Inv) (hwait : s.Waits k n) (hn : n ≤ 1) :
    ∃ t, exec .tick s = .next t ∧ .result k .timeout ∈ newEvents s t ∧ k ∉ t.q := by
  have hexp := (hwait.expiredAt_succ_iff hs).2 hn
  refine ⟨s.ticked, execTick_ticked hs.queue, ?_, by simp [State.ticked_q, hexp]⟩
  rw [newEvents_eq s.ticked_out]
  exact List.mem_map_of_mem (List.mem_filter.2 ⟨hwait.1, hexp⟩)

/-- Settles O31: the slot starts with the timeout's ticks, waits along the run, and has at most one left at the end. -/
theorem timeoutFiresOnItsTick : Obligations.TimeoutFiresOnItsTick := by
  intro id payload timeout s t u k ops hs hsend hack hops hrun hnone
  have hstart := execSend_waits hsend hack
  have hwaits (hfew : ops.count .tick < max (timeoutTicks timeout).toNat 1) :=
    runAll_waits (exec_inv hs hsend) hops hrun hstart hfew hnone
  refine ⟨fun hfew => ?_, fun hlast => ?_⟩
  · obtain ⟨_, hwait, hquiet⟩ := hwaits hfew
    exact ⟨hwait.1, hquiet⟩
  · change ops.count .tick + 1 = max (timeoutTicks timeout).toNat 1 at hlast
    obtain ⟨hinv, hwait, _⟩ := hwaits (by omega)
    exact exec_tick_times_out hinv hwait (by omega)

end Sys2Proof.Machine
end

section
/-! O41. The host's reading of each result (41_transaction.md R142). -/

namespace Sys2Proof.Machine

/-- Settles O41: the table's four rows, read off its definition. -/
theorem transmissionOkOfResults : Obligations.TransmissionOkOfResults :=
  ⟨fun _ _ => rfl, fun _ _ _ => rfl, fun _ => rfl, rfl⟩

end Sys2Proof.Machine
end

section
/-! O34, O35. What the decoder emits for a payload too short for a mask, and for the worked example (42_telegram.md R184,
R185). -/

namespace Sys2Proof.Machine

/-- A payload too short for an option mask (42_telegram.md R184). -/
theorem telegramEvents_short {order : MaskOrder} {p : List Byte} (h : p.length < 2) :
    telegramEvents order p = [.diag (.telegramTruncated p.length)] := if_pos h

/-- Settles O34: the events of a short payload. -/
theorem shortNotificationHasNoTelegram : Obligations.ShortNotificationHasNoTelegram :=
  fun _ s hshort => congrArg (fun es => Host.Outcome.next (s.emitAll es)) (telegramEvents_short hshort)

/-- The record of a notification whose flagged fields all fit: the fields at their offsets, then the application
payload. -/
theorem telegramOf_within {mask : Half} {r : List Byte} {o1 o2 o3 o4 o5 : Nat}
    (h1 : o1 = if mask.getLsbD 15 then 1 else 0)
    (h2 : o2 = o1 + if mask.getLsbD 3 then 4 else 0)
    (h3 : o3 = o2 + if mask.getLsbD 2 then 1 else 0)
    (h4 : o4 = o3 + if mask.getLsbD 1 then 1 else 0)
    (h5 : o5 = o4 + if mask.getLsbD 0 then 8 else 0) (hfit : o5 ≤ r.length) :
    telegramOf mask r =
      { fieldsAt mask r o1 o2 o3 o4 with
        rawApplicationPayload := r.drop o5
        incompleteLl := isIncompleteLl (fieldsAt mask r o1 o2 o3 o4) } := by
  have hpayload : slice r o5 r.length = r.drop o5 := List.take_of_length_le (by simp)
  rw [telegramOf, readFields_within h1 h2 h3 h4 h5 hfit, finishTelegram, ← hpayload]
  rfl

/-- Settles O35: the mask flags length, control and address block, which take the first ten bytes after it. -/
theorem workedTelegramExample : Obligations.WorkedTelegramExample := by
  intro l c m0 m1 a0 a1 a2 a3 ver ty app s
  have ht := telegramOf_within (mask := 0x0007#16) (r := [l, c, m0, m1, a0, a1, a2, a3, ver, ty] ++ app)
    (o1 := 0) (o2 := 0) (o3 := 1) (o4 := 2) (o5 := 10) rfl rfl rfl rfl rfl (by simp)
  have hevents := telegramEvents_cons 0x00#8 0x07#8 ([l, c, m0, m1, a0, a1, a2, a3, ver, ty] ++ app)
  rw [show (0x00#8 ++ 0x07#8 : Half) = 0x0007#16 from rfl, ht] at hevents
  exact congrArg (fun es => Host.Outcome.next (s.emitAll es)) hevents

end Sys2Proof.Machine
end

section
/-! O37. A notification whose data runs out (42_telegram.md R181, R182): a row is read while the offset it ends at lies
within the data, and from the first that does not the offset stands still. -/

namespace Sys2Proof.Machine

/-- The reader after rows that need the bytes up to `o`: there when they fit, else truncated at `last`, the offset before
the row that did not fit. -/
def readerUpTo (r : List Byte) (last o : Nat) : Reader := if o ≤ r.length then ⟨o, false⟩ else ⟨last, true⟩

theorem readerUpTo_offset (r : List Byte) (last o : Nat) :
    (readerUpTo r last o).offset = if o ≤ r.length then o else last := apply_ite Reader.offset ..

/-- A row that ends at `o'`: a flagged field is stored exactly when `o'` lies within the data, which it does only if the
rows before it did. -/
theorem readField_readerUpTo {mask : Half} {row : FieldRow} {r : List Byte} {last o o' : Nat}
    (ho : o' = o + rowNeeds mask row) (t : Telegram) :
    readField mask r (readerUpTo r last o, t) row =
      (readerUpTo r (readerUpTo r last o).offset o',
       if (mask.getLsbD row.bit && decide (o' ≤ r.length)) = true then
         storeField t (slice r o (o + row.size)) row.field else t) := by
  by_cases hfit : o ≤ r.length
  · by_cases hfit' : o' ≤ r.length
    · simp [readerUpTo, hfit, hfit', readField_upTo ho hfit']
    · simp [readerUpTo, hfit, hfit', readField_beyond hfit (ho ▸ Nat.lt_of_not_le hfit')]
  · have hfit' : ¬ o' ≤ r.length := by omega
    simp [readerUpTo, hfit, hfit', readField_trunc]

/-- The fields of a notification whose data runs out, before the record is finished: each flagged one that ends within
the data, the address block never, and the `ll_offset` marker at the last offset reached before it. -/
def fieldsThatFit (mask : Half) (r : List Byte) (o1 o2 o3 o4 : Nat) : Telegram :=
  { emptyTelegram mask with
    rssi := if mask.getLsbD 15 && decide (o1 ≤ r.length) then some (byteAt r 0) else none
    timestampRaw := if mask.getLsbD 3 && decide (o2 ≤ r.length) then some (be32 r o1) else none
    llOffset := if o2 ≤ r.length then o2 else if o1 ≤ r.length then o1 else 0
    lengthField := if mask.getLsbD 2 && decide (o3 ≤ r.length) then some (byteAt r o2) else none
    controlField := if mask.getLsbD 1 && decide (o4 ≤ r.length) then some (byteAt r o3) else none }

/-- When the flagged fields do not all fit, the reader ends truncated and the record holds those that fit. -/
theorem readFields_beyond {mask : Half} {r : List Byte} {o1 o2 o3 o4 o5 : Nat}
    (h1 : o1 = if mask.getLsbD 15 then 1 else 0)
    (h2 : o2 = o1 + if mask.getLsbD 3 then 4 else 0)
    (h3 : o3 = o2 + if mask.getLsbD 2 then 1 else 0)
    (h4 : o4 = o3 + if mask.getLsbD 1 then 1 else 0)
    (h5 : o5 = o4 + if mask.getLsbD 0 then 8 else 0) (hshort : r.length < o5) :
    ∃ last, readFields mask r = (⟨last, true⟩, fieldsThatFit mask r o1 o2 o3 o4) := by
  have h1' : o1 = 0 + rowNeeds mask ⟨15, .rssi, 1⟩ := h1.trans (Nat.zero_add _).symm
  have hstart : (⟨0, false⟩ : Reader) = readerUpTo r 0 0 := (if_pos (Nat.zero_le _)).symm
  have hend (last : Nat) : readerUpTo r last o5 = ⟨last, true⟩ := if_neg (Nat.not_le.2 hshort)
  simp only [readFields, fieldsBeforeLl, fieldsAfterLl, List.foldl_cons, List.foldl_nil]
  rw [hstart, readField_readerUpTo h1', readField_readerUpTo h2, readField_readerUpTo h3, readField_readerUpTo h4,
    readField_readerUpTo h5, hend]
  refine ⟨_, congrArg _ ?_⟩
  simp only [storeField_if_rssi, storeField_if_timestamp, storeField_if_length, storeField_if_control,
    readerUpTo_offset, ite_self, decide_eq_false (Nat.not_le.2 hshort), Bool.and_false, Bool.false_eq_true, if_false]
  rw [byteAt_slice r 0 1 0 (by decide), be32_slice r o1 4 0 (by decide), byteAt_slice r o2 1 0 (by decide),
    byteAt_slice r o3 1 0 (by decide)]
  rfl

/-- The link layer is incomplete when one of its fields is absent (42_telegram.md R182). -/
theorem isIncompleteLl_iff (t : Telegram) :
    isIncompleteLl t = true ↔ t.lengthField = none ∨ t.controlField = none ∨ t.manufacturerId = none := by
  simp [isIncompleteLl, or_assoc]

/-- Settles O37: the record is that of the fields that fit, finished as truncated. -/
theorem truncatedTelegramKeepsWhatFits : Obligations.TruncatedTelegramKeepsWhatFits := by
  intro hi lo r s mask o1 o2 o3 o4 o5 hmask h1 h2 h3 h4 h5 hshort
  obtain ⟨last, hfields⟩ := readFields_beyond h1 h2 h3 h4 h5 hshort
  have ht : telegramOf mask r = finishTelegram r (⟨last, true⟩, fieldsThatFit mask r o1 o2 o3 o4) := by
    rw [telegramOf, hfields]
  have htrunc : (telegramOf mask r).truncated = true := by rw [ht]; rfl
  have hevents := telegramEvents_cons hi lo r
  rw [← hmask, if_pos htrunc] at hevents
  refine ⟨telegramOf mask r, congrArg (fun es => Host.Outcome.next (s.emitAll es)) hevents, ?_⟩
  rw [ht]
  simp [finishTelegram, fieldsThatFit, emptyTelegram, isIncompleteLl_iff]

end Sys2Proof.Machine
end

section
/-! O38. The mask bits that flag no field (42_telegram.md R183): decoding under two masks that agree elsewhere runs in
step, and the records differ in the mask they keep. -/

namespace Sys2Proof.Machine

/-- A reader and record, the record keeping another mask. -/
def withMask (m : Half) (acc : Reader × Telegram) : Reader × Telegram := (acc.1, { acc.2 with optionMask := m })

theorem storeField_withMask (m : Half) (t : Telegram) (v : List Byte) (f : Field) :
    storeField { t with optionMask := m } v f = { storeField t v f with optionMask := m } := by
  cases f <;> rfl

/-- A row whose flag bit the masks agree on is read alike. -/
theorem readField_withMask {m m' : Half} {row : FieldRow} (h : m.getLsbD row.bit = m'.getLsbD row.bit) (r : List Byte)
    (acc : Reader × Telegram) : readField m' r (withMask m' acc) row = withMask m' (readField m r acc row) := by
  by_cases hb : m'.getLsbD row.bit
  · rcases htake : takeBytes row.size r acc.1 with ⟨_ | v, rd⟩
    · simp [readField, withMask, h, hb, htake]
    · simp [readField, withMask, h, hb, htake, storeField_withMask]
  · rw [Bool.not_eq_true] at hb
    rw [readField_clear hb, readField_clear (h.trans hb)]

/-- Rows whose flag bits the masks agree on are read alike. -/
theorem foldl_readField_withMask {m m' : Half} (r : List Byte) (rows : List FieldRow) (acc : Reader × Telegram)
    (h : ∀ row ∈ rows, m.getLsbD row.bit = m'.getLsbD row.bit) :
    rows.foldl (readField m' r) (withMask m' acc) = withMask m' (rows.foldl (readField m r) acc) := by
  induction rows generalizing acc with
  | nil => rfl
  | cons row rows ih =>
    obtain ⟨hrow, hrows⟩ := List.forall_mem_cons.1 h
    rw [List.foldl_cons, readField_withMask hrow, ih _ hrows, List.foldl_cons]

/-- Masks that agree in the six bits with a meaning give one record but for the mask it keeps. -/
theorem telegramOf_withMask {m m' : Half} (h : ∀ i ∈ [15, 4, 3, 2, 1, 0], m.getLsbD i = m'.getLsbD i) (r : List Byte) :
    telegramOf m' r = { telegramOf m r with optionMask := m' } := by
  simp only [List.forall_mem_cons] at h
  obtain ⟨h15, h4, h3, h2, h1, h0, _⟩ := h
  have hempty : ((⟨0, false⟩, emptyTelegram m') : Reader × Telegram) = withMask m' (⟨0, false⟩, emptyTelegram m) := by
    simp only [withMask, emptyTelegram, h4]
  have hbefore : ∀ row ∈ fieldsBeforeLl, m.getLsbD row.bit = m'.getLsbD row.bit :=
    List.forall_mem_cons.2 ⟨h15, List.forall_mem_singleton.2 h3⟩
  have hafter : ∀ row ∈ fieldsAfterLl, m.getLsbD row.bit = m'.getLsbD row.bit :=
    List.forall_mem_cons.2 ⟨h2, List.forall_mem_cons.2 ⟨h1, List.forall_mem_singleton.2 h0⟩⟩
  have hfields : readFields m' r = withMask m' (readFields m r) := by
    simp only [readFields]
    rw [hempty, foldl_readField_withMask r _ _ hbefore, ← foldl_readField_withMask r _ _ hafter]
    rfl
  rw [telegramOf, hfields]
  rfl

/-- Settles O38: the record under the one mask serves both. -/
theorem reservedMaskBitsAreIgnored : Obligations.ReservedMaskBitsAreIgnored := by
  intro hi lo hi' lo' r s m m' hm hm' hagree
  have hself : telegramOf m r = { telegramOf m r with optionMask := m } := telegramOf_withMask (fun _ _ => rfl) r
  have hevents := telegramEvents_cons hi lo r
  have hevents' := telegramEvents_cons hi' lo' r
  rw [← hm, hself] at hevents
  rw [← hm', telegramOf_withMask hagree r] at hevents'
  exact ⟨telegramOf m r, congrArg (fun es => Host.Outcome.next (s.emitAll es)) hevents,
    congrArg (fun es => Host.Outcome.next (s.emitAll es)) hevents'⟩

end Sys2Proof.Machine
end

section
/-! O4. A step takes the operation presented off the port and runs it (43_host_port.md R200). -/

namespace Sys2Proof.Machine

/-- A step runs the instruction of the entry at the head of the port, on the state whose port is the rest. -/
theorem step_of_port_cons {s : State} {x : PortEntry} {rest : List PortEntry} (h : s.port = x :: rest) :
    step s = exec x.toInstr { s with port := rest } := by
  rw [step, h]

/-- Settles O4: the entry presented is a host command, whose instruction is what it decodes to, or an operation given
directly. -/
theorem stepRunsThePresentedOperation : Obligations.StepRunsThePresentedOperation :=
  ⟨fun _ _ _ hcommand => step_of_port_cons hcommand, fun _ _ _ hdirect => step_of_port_cons hdirect⟩

end Sys2Proof.Machine
end

section
/-! O48. The events of one operation (60_exceptions.md R226), one lemma for each operation: every branch of its cases
lemma appends a list of one of the allowed forms. -/

namespace Sys2Proof.Machine

/-- The decoder's events have the form R226 gives: the mask in the diagnostic is the one the record keeps. -/
theorem telegramEvents_isDecodeEvents (p : List Byte) : IsDecodeEvents p (telegramEvents Config.maskOrder p) := by
  match p with
  | [] | [_] => exact .inl ⟨by simp, telegramEvents_short (by simp)⟩
  | hi :: lo :: r =>
    refine .inr ⟨by simp, telegramOf (hi ++ lo) r, ?_⟩
    rw [telegramEvents_cons, telegramOf_optionMask]
    rfl

/-- ON_FRAME emits one of its four kinds; a result it delivers is never a timeout (41_transaction.md R135 to R141). -/
theorem onFrame_isFrameEvents {f : List Byte} {s t : State} (h : onFrame f s = .next t) :
    IsFrameEvents f (newEvents s t) := by
  obtain ⟨_, _, ⟨_, rfl⟩ | ⟨_, _, rfl⟩ | ⟨k, rest, e, _, _, _, rfl⟩⟩ := onFrame_cases h
  · exact .inl ⟨_, newEvents_eq rfl⟩
  · obtain ⟨es, heq, hes⟩ := dispatchUnsolicited_eq f s
    rw [heq, newEvents_eq (State.emitAll_out s es)]
    rcases hes with rfl | rfl
    · exact .inr (.inr (.inl (telegramEvents_isDecodeEvents _)))
    · exact .inr (.inr (.inr ⟨_, rfl⟩))
  · exact .inr (.inl ⟨k, _, resultFor_ne_timeout e _ _, newEvents_eq rfl⟩)

/-- SEND of a payload that fits emits QueueFull, or the acknowledgement and then the frame (41_transaction.md R130). -/
theorem execSend_newEvents {id : CommandId} {p : List Byte} {tmo : Option Timeout} {s t : State}
    (hlen : p.length ≤ 508) (h : execSend id p tmo s = .next t) :
    newEvents s t = [.sendNak .queueFull] ∨ ∃ k, newEvents s t = [.sendAck k, .tx (encodeFrame id p)] := by
  rcases execSend_cases h with ⟨hlong, _⟩ | ⟨_, _, rfl⟩ | ⟨k, _, _, _, rfl⟩
  · exact absurd hlen (Nat.not_le.2 hlong)
  · exact .inl (newEvents_eq rfl)
  · exact .inr ⟨k, newEvents_eq (State.accept_out ..)⟩

/-- FEED_BYTE emits nothing while it buffers, at most MalformedLength when it checks a prefix, and ON_FRAME's events when
it completes a frame (40_frame_codec.md R102 to R104). -/
theorem execFeedByte_newEvents {b : Byte} {s t : State} (hs : s.Inv) (h : execFeedByte b s = .next t) :
    newEvents s t = [] ∨ (∃ l, newEvents s t = [.diag (.malformedLength l)]) ∨
      IsFrameEvents (s.rxBuf.readFirst s.rxCnt ++ [b]) (newEvents s t) := by
  obtain ⟨_, ⟨_, _, rfl⟩ | ⟨_, _, rfl⟩ | ⟨_, _, _, rfl⟩ | ⟨l, hexp, hlast, _⟩⟩ := execFeedByte_cases h
  · exact .inl (newEvents_self s)
  · rcases checkPrefix_cases (bufferByte b s) with ⟨_, heq⟩ | ⟨_, _, heq⟩
    · rw [heq]
      exact .inr (.inl ⟨_, newEvents_eq rfl⟩)
    · rw [heq]
      exact .inl (newEvents_self s)
  · exact .inl (newEvents_self s)
  · have hframe := (execFeedByte_completes hs hexp hlast).symm.trans h
    exact .inr (.inr (onFrame_isFrameEvents (s := (bufferByte b s).clearParser) hframe))

/-- Settles O48: each operation completes under the invariants, and its events are those of its lemma. -/
theorem eventsOfOneOperation : Obligations.EventsOfOneOperation := by
  intro s hs
  refine ⟨fun id p tmo => ?_, fun b => ?_, fun f h5 h512 => ?_, fun p => ?_, s.ticked, execTick_ticked hs.queue, ?_⟩
  · obtain ⟨t, ht⟩ := execSend_isNext hs id p tmo
    refine ⟨t, ht, fun hlong => ?_, fun hlen => execSend_newEvents hlen ht⟩
    obtain rfl := Host.Outcome.next.inj ((execSend_tooLong hlong id tmo s).symm.trans ht)
    exact newEvents_eq rfl
  · obtain ⟨t, ht⟩ := execFeedByte_isNext hs b
    exact ⟨t, ht, execFeedByte_newEvents hs ht⟩
  · obtain ⟨t, ht⟩ := onFrame_isNext h5 h512 (slots_lt_of_queueInv hs.queue)
    refine ⟨t, ht, onFrame_isFrameEvents ht, fun hbad => ?_⟩
    obtain rfl := Host.Outcome.next.inj ((onFrame_discards h5 h512 hbad s).symm.trans ht)
    exact ⟨_, newEvents_eq rfl⟩
  · exact ⟨_, rfl, newEvents_eq (State.emitAll_out ..) ▸ telegramEvents_isDecodeEvents p⟩
  · exact ⟨_, List.filter_sublist, newEvents_eq s.ticked_out⟩

end Sys2Proof.Machine
end

section
/-! O43. The condition codes and the infos of the diagnostics (60_exceptions.md R220 to R222). -/

namespace Sys2Proof.Machine

/-- Settles O43: the codes are the rows of their definitions; of the infos, ChecksumMismatch's holds two bytes. -/
theorem conditionCodes : Obligations.ConditionCodes :=
  ⟨rfl, rfl, fun _ => ⟨rfl, rfl⟩, fun computed received => ⟨rfl, toNat_be16 computed received⟩, fun _ => ⟨rfl, rfl⟩,
    fun _ => ⟨rfl, rfl⟩, fun _ => ⟨rfl, rfl⟩, fun _ => ⟨rfl, rfl⟩, fun _ _ _ => rfl, fun _ => rfl, rfl⟩

end Sys2Proof.Machine
end

section
/-! O27. While an expectation is pending nothing is decoded as a telegram (70_reset_and_hazards.md R254): a valid frame
resolves the oldest expectation, and every other event of FEED_BYTE and ON_FRAME is a diagnostic. -/

namespace Sys2Proof.Machine

/-- Only a valid frame on an empty queue goes to the telegram decoder (41_transaction.md R135, R140). -/
theorem onFrame_emits_no_telegram {f : List Byte} {s t : State} (hq : s.q ≠ []) (h : onFrame f s = .next t) :
    ∀ e ∈ newEvents s t, e.isTelegram = false := by
  obtain ⟨_, _, ⟨_, rfl⟩ | ⟨_, hempty, _⟩ | ⟨k, rest, e, _, _, _, rfl⟩⟩ := onFrame_cases h
  · rw [newEvents_eq (State.raise_out ..), List.forall_mem_singleton]
    rfl
  · exact absurd hempty hq
  · rw [resolveHead_eq, newEvents_eq rfl, List.forall_mem_singleton]
    rfl

/-- FEED_BYTE emits nothing, the diagnostic of a malformed prefix, or the events of ON_FRAME. -/
theorem execFeedByte_emits_no_telegram {b : Byte} {s t : State} (hq : s.q ≠ [])
    (h : execFeedByte b s = .next t) : ∀ e ∈ newEvents s t, e.isTelegram = false := by
  have hbuffer : newEvents s (bufferByte b s) = [] := newEvents_self s
  obtain ⟨_, ⟨_, _, rfl⟩ | ⟨_, _, rfl⟩ | ⟨_, _, _, rfl⟩ | ⟨_, _, _, hframe⟩⟩ := execFeedByte_cases h
  · simp [hbuffer]
  · obtain ⟨es, hout, hes⟩ := checkPrefix_out (bufferByte b s)
    rw [newEvents_eq (s := s) hout]
    intro e he
    obtain ⟨l, rfl⟩ := hes e he
    rfl
  · simp [hbuffer]
  · exact onFrame_emits_no_telegram (s := (bufferByte b s).clearParser) hq hframe

/-- Settles O27: under the invariants every byte completes, and neither operation reaches the decoder. -/
theorem noTelegramWhileACommandIsPending : Obligations.NoTelegramWhileACommandIsPending := by
  intro s h hq
  refine ⟨fun b => ?_, fun f t ht => onFrame_emits_no_telegram hq ht⟩
  obtain ⟨t, ht⟩ := execFeedByte_isNext h b
  exact ⟨t, ht, execFeedByte_emits_no_telegram hq ht⟩

end Sys2Proof.Machine
end

section
/-! O33. The four bytes of an empty response are two malformed prefixes (70_reset_and_hazards.md R262). -/

namespace Sys2Proof.Machine

/-- Settles O33: the length 4 is below 5, and an id of at least 0x80 makes the next two bytes a length above 512. The
parser is empty before, between and after. -/
theorem emptyResponsesAreNotReceived : Obligations.EmptyResponsesAreNotReceived := by
  intro id c s h hexp hcnt hid
  have hval := toNat_be16 id c
  obtain ⟨_, _, rfl, hfirst, hinv⟩ :=
    runAll_feed_malformedPrefix (a := 0x00#8) (b := 0x04#8) [id, c] h hexp hcnt (.inl (by decide))
  obtain ⟨m, _, rfl, hsecond, _⟩ :=
    runAll_feed_malformedPrefix (a := id) (b := c) [] hinv hexp rfl (.inr (by omega))
  refine ⟨m, id ++ c, hval, hfirst.trans (hsecond.trans ?_)⟩
  simp [feed, hcnt]

end Sys2Proof.Machine
end

section
/-! O1. Power-on and RESET give the reset state (70_reset_and_hazards.md R250). -/

namespace Sys2Proof.Machine

/-- Every slot RESET leaves is free, and it writes the other fields of the reset state one by one. -/
theorem execReset_isResetState {s t : State} (h : execReset s = .next t) : t.IsResetState := by
  obtain rfl := next_inj h
  refine ⟨rfl, rfl, rfl, rfl, fun k => Bool.eq_false_iff.2 fun hk => ?_, rfl⟩
  obtain ⟨e, he, hbusy⟩ := (State.busyAt_iff _ k).1 hk
  obtain rfl := List.eq_of_mem_replicate (List.mem_of_getElem? he)
  exact Bool.false_ne_true hbusy

/-- Settles O1: the power-on state is what RESET makes of itself, and RESET leaves `out` alone. -/
theorem resetGivesTheResetState : Obligations.ResetGivesTheResetState :=
  ⟨execReset_isResetState resetIsIdempotent.2, rfl, fun _ => ⟨_, rfl, execReset_isResetState rfl, rfl⟩⟩

end Sys2Proof.Machine
end

section
/-! O7 and O8. Encoding and decoding host commands are inverse (30_encoding.md R85, R86): the words the encoder writes
decode to their operands, and every word the decoder reads is one of them. -/

namespace Sys2Proof

theorem decode_feedByteWord (b : Byte) (lanes : PayloadPort) (port : Timeout) :
    decode ⟨feedByteWord b, lanes, port⟩ = .feedByte b := by
  have hval := toNat_feedByteWord b
  have hb := b.isLt
  have hform : HostWord.isFeedByte (feedByteWord b) = true := (HostWord.isFeedByte_iff _).2 (by omega)
  have hbyte : (feedByteWord b).extractLsb' 0 8 = b := BitVec.eq_of_toNat_eq (by rw [toNat_field]; omega)
  rw [decode, if_pos hform, hbyte]

/-- The timeout-given bit as a number. -/
theorem toNat_timeoutGiven (w : HostWord) : (w.getLsbD 7).toNat = w.toNat / 128 % 2 := Nat.toNat_testBit w.toNat 7

theorem sendTimeoutOf_sendWord (n : BitVec 9) (t : Bool) (id : CommandId) (port : Timeout) :
    sendTimeoutOf (sendWord n t id) port = if t then some port else none := by
  have hval := toNat_sendWord n t id
  have hid := id.isLt
  have ht := Bool.toNat_le t
  have hnum : ((sendWord n t id).getLsbD 7).toNat = t.toNat := by
    rw [toNat_timeoutGiven]
    omega
  have hbit : (sendWord n t id).getLsbD 7 = t := Function.LeftInverse.injective Bool.ofNat_toNat hnum
  rw [sendTimeoutOf, hbit]

/-- A SEND word reads `n` lanes of the payload port, and the timeout port when its `T` is set. -/
theorem decode_sendWord (n : BitVec 9) (t : Bool) (id : CommandId) (lanes : PayloadPort) (port : Timeout) :
    decode ⟨sendWord n t id, lanes, port⟩ =
      .send id (lanes.toList.take n.toNat) (if t then some port else none) := by
  have hval := toNat_sendWord n t id
  have hn := n.isLt
  have ht := Bool.toNat_le t
  have hid := id.isLt
  have hfeed : ¬ HostWord.isFeedByte (sendWord n t id) = true := by
    rw [HostWord.isFeedByte_iff]
    omega
  have hform : HostWord.isSend (sendWord n t id) = true := (HostWord.isSend_iff _).2 (by omega)
  have hcount : ((sendWord n t id).extractLsb' 8 9).toNat = n.toNat := by rw [toNat_field]; omega
  have hcmd : (sendWord n t id).extractLsb' 0 7 = id := BitVec.eq_of_toNat_eq (by rw [toNat_field]; omega)
  rw [decode, if_neg hfeed, if_pos hform, hcmd, sendTimeoutOf_sendWord, sendPayloadOf, hcount]

theorem exists_feedByteWord {w : HostWord} (h : HostWord.isFeedByte w = true) : ∃ b, w = feedByteWord b := by
  have hform := (HostWord.isFeedByte_iff w).1 h
  refine ⟨w.extractLsb' 0 8, BitVec.eq_of_toNat_eq ?_⟩
  rw [toNat_feedByteWord, toNat_field]
  omega

theorem exists_sendWord {w : HostWord} (h : HostWord.isSend w = true) : ∃ n t id, w = sendWord n t id := by
  have hform := (HostWord.isSend_iff w).1 h
  have hbit := toNat_timeoutGiven w
  have hcount : w.toNat / 2 ^ 8 / 2 ^ 9 = w.toNat / 2 ^ 17 := Nat.div_div_eq_div_mul ..
  refine ⟨w.extractLsb' 8 9, w.getLsbD 7, w.extractLsb' 0 7, BitVec.eq_of_toNat_eq ?_⟩
  rw [toNat_sendWord, toNat_field, toNat_field]
  omega

theorem decode_tickWord (lanes : PayloadPort) (port : Timeout) : decode ⟨0x3#4 ++ 0#28, lanes, port⟩ = .tick := by
  unfold decode
  dsimp only
  rw [if_neg (by decide), if_neg (by decide), if_pos (by decide)]

theorem decode_resetWord (lanes : PayloadPort) (port : Timeout) : decode ⟨0xF#4 ++ 0#28, lanes, port⟩ = .reset := by
  unfold decode
  dsimp only
  rw [if_neg (by decide), if_neg (by decide), if_neg (by decide), if_pos (by decide)]

/-- Every host command holds a word the encoder writes, with the operands the decoder reads, or a word of no legal
form. -/
theorem decode_cases (c : HostCommand) :
    (∃ b, c.word = feedByteWord b ∧ decode c = .feedByte b) ∨
    (∃ n t id, c.word = sendWord n t id ∧
      decode c = .send id (c.payload.toList.take n.toNat) (if t then some c.timeout else none)) ∨
    (c.word = 0x3#4 ++ 0#28 ∧ decode c = .tick) ∨
    (c.word = 0xF#4 ++ 0#28 ∧ decode c = .reset) ∨
    (HostWord.isLegal c.word = false ∧ decode c = .illegal c.word) := by
  obtain ⟨w, lanes, port⟩ := c
  rcases Bool.eq_false_or_eq_true (HostWord.isLegal w) with hlegal | hillegal
  · simp only [HostWord.isLegal, Bool.or_eq_true] at hlegal
    rcases hlegal with ((hfeed | hsend) | htick) | hreset
    · obtain ⟨b, rfl⟩ := exists_feedByteWord hfeed
      exact .inl ⟨b, rfl, decode_feedByteWord ..⟩
    · obtain ⟨n, t, id, rfl⟩ := exists_sendWord hsend
      exact .inr (.inl ⟨n, t, id, rfl, decode_sendWord ..⟩)
    · obtain rfl : w = 0x3#4 ++ 0#28 := BitVec.eq_of_toNat_eq ((HostWord.isTick_iff w).1 htick)
      exact .inr (.inr (.inl ⟨rfl, decode_tickWord ..⟩))
    · obtain rfl : w = 0xF#4 ++ 0#28 := BitVec.eq_of_toNat_eq ((HostWord.isReset_iff w).1 hreset)
      exact .inr (.inr (.inr (.inl ⟨rfl, decode_resetWord ..⟩)))
  · exact .inr (.inr (.inr (.inr ⟨hillegal, (decode_eq_illegal_iff _ _).2 ⟨hillegal, rfl⟩⟩)))

/-- What a host command decodes to meets its operand domain. -/
theorem decode_wellFormed (c : HostCommand) : (decode c).wellFormed = true := by
  rcases decode_cases c with ⟨_, _, h⟩ | ⟨_, _, _, _, h⟩ | ⟨_, h⟩ | ⟨_, h⟩ | ⟨hillegal, h⟩
  · rw [h]; rfl
  · rw [h]; rfl
  · rw [h]; rfl
  · rw [h]; rfl
  · rw [h, Instr.wellFormed, hillegal]; rfl

/-- The first `n` lanes of the side port are `n` bytes, for every `n` the field holds. -/
theorem length_take_lanes (lanes : PayloadPort) (n : BitVec 9) : (lanes.toList.take n.toNat).length = n.toNat := by
  have hn := n.isLt
  rw [List.length_take, Vector.length_toList]
  omega

theorem encode_send {p : List Byte} (h : p.length ≤ 511) (id : CommandId) (tmo : Option Timeout) :
    encode (.send id p tmo) =
      some ⟨sendWord (BitVec.ofNat 9 p.length) tmo.isSome id, drivePayload p, tmo.getD 0#31⟩ := if_pos h

/-- A payload the field `n` expresses comes back from the side port, and so does the timeout. -/
theorem decode_encode_send {p : List Byte} (h : p.length ≤ 511) (id : CommandId) (tmo : Option Timeout) :
    decode ⟨sendWord (BitVec.ofNat 9 p.length) tmo.isSome id, drivePayload p, tmo.getD 0#31⟩ = .send id p tmo := by
  have hcount : (BitVec.ofNat 9 p.length).toNat = p.length := Nat.mod_eq_of_lt (by omega)
  rw [decode_sendWord, hcount, take_drivePayload p h]
  cases tmo <;> rfl

/-- The round trip of one well-formed host-port operation. -/
theorem decode_encode {i : Instr} (hwf : i.wellFormed = true) (hhost : i.isHostOp = true)
    (hlen : ∀ id p tmo, i = .send id p tmo → p.length ≤ 511) : ∃ c, encode i = some c ∧ decode c = i := by
  cases i with
  | feedByte b => exact ⟨_, rfl, decode_feedByteWord ..⟩
  | send id p tmo =>
    have hp := hlen id p tmo rfl
    exact ⟨_, encode_send hp id tmo, decode_encode_send hp id tmo⟩
  | tick => exact ⟨_, rfl, decode_tickWord ..⟩
  | reset => exact ⟨_, rfl, decode_resetWord ..⟩
  | illegal w => exact ⟨_, rfl, (decode_eq_illegal_iff _ _).2 ⟨by simpa [Instr.wellFormed] using hwf, rfl⟩⟩
  | checksum bytes => cases hhost
  | encode id p => cases hhost
  | onFrame f => cases hhost
  | expire k => cases hhost
  | decodeTelegram p => cases hhost

theorem encode_internal {i : Instr} (h : i.isHostOp = false) : encode i = none := by
  cases i with
  | feedByte b => cases h
  | send id p tmo => cases h
  | tick => cases h
  | reset => cases h
  | illegal w => cases h
  | checksum bytes => rfl
  | encode id p => rfl
  | onFrame f => rfl
  | expire k => rfl
  | decodeTelegram p => rfl

/-- A SEND read from a word has a payload the field `n` expresses. -/
theorem decode_send_length {c : HostCommand} {id : CommandId} {p : List Byte} {tmo : Option Timeout}
    (h : decode c = .send id p tmo) : p.length ≤ 511 := by
  rcases decode_cases c with ⟨_, _, hd⟩ | ⟨n, _, _, _, hd⟩ | ⟨_, hd⟩ | ⟨_, hd⟩ | ⟨_, hd⟩
  · cases hd.symm.trans h
  · cases hd.symm.trans h
    have hn := n.isLt
    rw [length_take_lanes]
    omega
  · cases hd.symm.trans h
  · cases hd.symm.trans h
  · cases hd.symm.trans h

/-- The decoded operands determine the word: the length of a SEND's payload is the field `n`. -/
theorem encode_decode_word {c c' : HostCommand} (h : encode (decode c) = some c') : c'.word = c.word := by
  rcases decode_cases c with ⟨b, hw, hd⟩ | ⟨n, t, id, hw, hd⟩ | ⟨hw, hd⟩ | ⟨hw, hd⟩ | ⟨_, hd⟩
  · rw [hd] at h
    exact hw ▸ Option.some.inj h ▸ rfl
  · rw [hd, encode_send (decode_send_length hd)] at h
    obtain rfl := Option.some.inj h
    rw [hw, length_take_lanes, BitVec.ofNat_toNat, BitVec.setWidth_eq]
    cases t <;> rfl
  · rw [hd] at h
    exact hw ▸ Option.some.inj h ▸ rfl
  · rw [hd] at h
    exact hw ▸ Option.some.inj h ▸ rfl
  · rw [hd] at h
    exact Option.some.inj h ▸ rfl

/-- Settles O7: the word decodes to the operands it was written from, the side ports carrying the rest. -/
theorem decodeOfEncodeIsTheInstruction : Obligations.DecodeOfEncodeIsTheInstruction :=
  ⟨fun _ => decode_encode, fun _ => encode_internal, fun _ _ _ hlong => if_neg (Nat.not_le.2 hlong)⟩

/-- Settles O8: what a command decodes to is a well-formed host-port operation, so O7's round trip applies, and its
operands determine the word. -/
theorem encodeOfDecodeKeepsTheWord : Obligations.EncodeOfDecodeKeepsTheWord := by
  intro c
  obtain ⟨c', henc, hdec⟩ :=
    decode_encode (decode_wellFormed c) (Machine.decode_isHostOp c) (fun _ _ _ hd => decode_send_length hd)
  exact ⟨c', henc, encode_decode_word henc, hdec⟩

end Sys2Proof
end

section
/-! O9. The decoder and the opcode table read every word alike (30_encoding.md R85). -/

namespace Sys2Proof

/-- No word is of both rows: they ask for different values of a bit that both masks keep. -/
def TableRow.Excludes (r r' : TableRow) : Prop := r.pattern &&& r'.mask ≠ r'.pattern &&& r.mask

theorem TableRow.Excludes.not_both {r r' : TableRow} (h : r.Excludes r') {w : HostWord}
    (hr : rowMatches w r = true) : rowMatches w r' = false := by
  rw [rowMatches, beq_iff_eq] at hr
  rw [rowMatches, beq_eq_false_iff_ne]
  intro hr'
  apply h
  rw [← hr, ← hr', BitVec.and_assoc, BitVec.and_assoc, BitVec.and_comm r.mask]

theorem opcodeTable_pairwise_excludes : opcodeTable.Pairwise TableRow.Excludes := by
  unfold TableRow.Excludes
  decide

/-- A word is of at most one row, since any two rows exclude each other. -/
theorem length_filter_rowMatches_le_one (w : HostWord) : (opcodeTable.filter (rowMatches w)).length ≤ 1 := by
  have hpair := opcodeTable_pairwise_excludes.filter (rowMatches w)
  have hmatch : ∀ r ∈ opcodeTable.filter (rowMatches w), rowMatches w r = true :=
    fun _ hr => (List.mem_filter.1 hr).2
  rcases hrows : opcodeTable.filter (rowMatches w) with _ | ⟨r, _ | ⟨r', rest⟩⟩
  · exact Nat.zero_le 1
  · exact Nat.le_refl 1
  · rw [hrows] at hpair hmatch
    have hexcl : r.Excludes r' := List.rel_of_pairwise_cons hpair List.mem_cons_self
    have hr := hmatch r List.mem_cons_self
    have hr' := hmatch r' (List.mem_cons_of_mem _ List.mem_cons_self)
    exact absurd (hr'.symm.trans (hexcl.not_both hr)) (by decide)

/-- The decoder and the table test the four legal forms in one order. -/
theorem decode_mnemonic (c : HostCommand) : (decode c).mnemonic = tableMnemonic c.word := by
  rw [Laws.EncodesToItsRow.tableMnemonic_eq, decode]
  split_ifs <;> rfl

/-- Settles O9: the rows exclude each other, and the decoder's tests are the rows'. -/
theorem decoderAgreesWithTheOpcodeTable : Obligations.DecoderAgreesWithTheOpcodeTable :=
  fun c => ⟨length_filter_rowMatches_le_one c.word, decode_mnemonic c, decode_wellFormed c⟩

end Sys2Proof
end

section
/-! O6. The host words of 95_test_vectors.md section 2.9. -/

namespace Sys2Proof

/-- Settles O6: nine closed words, each decoded by evaluation. -/
theorem writtenHostWordsDecode : Obligations.WrittenHostWordsDecode := by
  unfold Obligations.WrittenHostWordsDecode
  decide

end Sys2Proof
end

section
/-! O45 and O3. The invariants hold of the reset state, and every instruction keeps them (10_state.md R24, R27, R28,
R37). -/

namespace Sys2Proof.Machine

/-- Settles O45: the step lemma of O44 is stated for every instruction, host-port or internal. -/
theorem everyInstructionKeepsTheInvariants : Obligations.EveryInstructionKeepsTheInvariants :=
  fun _ _ _ => exec_inv

/-- A state with no busy slot, an empty queue and an empty parser meets the invariants, once it has a slot and its
buffer is in canonical form. -/
theorem State.IsResetState.inv {s : State} (h : s.IsResetState) (hbuf : s.rxBuf.wf) (harena : 1 ≤ s.slots.length) :
    s.Inv := by
  have hidle : ∀ e ∈ s.slots, e.busy ≠ true := by
    intro e he hbusy
    obtain ⟨k, hk⟩ := List.mem_iff_getElem?.1 he
    exact Bool.false_ne_true ((h.free k).symm.trans ((s.busyAt_iff k).2 ⟨e, hk, hbusy⟩))
  exact
    { parser := (State.parserInv_of_none h.rxExp).2 (h.rxCnt ▸ Nat.zero_le 1)
      buffer := hbuf
      arena := harena
      queue := s.queueInv_iff.2 ⟨h.q ▸ List.nodup_nil, fun k => by simp [h.q, h.free k]⟩
      timer := fun e he hbusy => absurd hbusy (hidle e he)
      expectedId := fun e he hbusy => absurd hbusy (hidle e he) }

/-- Settles O3: the power-on state is a reset state, with an empty buffer and 8 slots. -/
theorem resetStateMeetsTheInvariants : Obligations.ResetStateMeetsTheInvariants :=
  resetGivesTheResetState.1.inv reset_rxBuf_wf (by decide)

end Sys2Proof.Machine
end

section
/-! O50. FEED_BYTE and RESET alone write the buffer and the Parser State (10_state.md R21 to R23, 20_memory.md R50). -/

namespace Sys2Proof.Machine

/-- Every answer of SEND is in the arena, the queue and the events. -/
theorem execSend_keepsParser {id : CommandId} {p : List Byte} {tmo : Option Timeout} {s t : State}
    (h : execSend id p tmo s = .next t) : t.rxBuf = s.rxBuf ∧ t.rxCnt = s.rxCnt ∧ t.rxExp = s.rxExp := by
  rcases execSend_cases h with ⟨_, rfl⟩ | ⟨_, _, rfl⟩ | ⟨k, _, _, _, rfl⟩
  · exact ⟨rfl, rfl, rfl⟩
  · exact ⟨rfl, rfl, rfl⟩
  · exact ⟨rfl, rfl, rfl⟩

theorem execTick_keepsParser {s t : State} (h : execTick s = .next t) :
    t.rxBuf = s.rxBuf ∧ t.rxCnt = s.rxCnt ∧ t.rxExp = s.rxExp := by
  obtain rfl := execTick_cases h
  obtain ⟨hbuf, hcnt, hexp, _⟩ := expireAll_spec s.q { s with now := s.now + 1#32 }
  exact ⟨hbuf, hcnt, hexp⟩

/-- Every other meaning writes neither the buffer nor the Parser State. -/
theorem exec_keepsParser {i : Instr} {s t : State} (h : exec i s = .next t) (hfeed : ∀ b, i ≠ .feedByte b)
    (hreset : i ≠ .reset) : t.rxBuf = s.rxBuf ∧ t.rxCnt = s.rxCnt ∧ t.rxExp = s.rxExp := by
  cases i with
  | feedByte b => exact absurd rfl (hfeed b)
  | send id p tmo => exact execSend_keepsParser h
  | tick => exact execTick_keepsParser h
  | reset => exact absurd rfl hreset
  | illegal w => exact next_inj h ▸ ⟨rfl, rfl, rfl⟩
  | checksum bytes => exact next_inj h ▸ ⟨rfl, rfl, rfl⟩
  | encode id p => exact (execEncode_cases h).2 ▸ ⟨rfl, rfl, rfl⟩
  | onFrame f => exact onFrame_keepsParser h
  | expire k => exact (execExpire_cases h).2 ▸ ⟨rfl, rfl, rfl⟩
  | decodeTelegram p => exact next_inj h ▸ ⟨rfl, rfl, rfl⟩

/-- Settles O50: the phase is read off `rx_exp` (10_state.md R21), which stays. -/
theorem onlyFeedByteAndResetTouchTheParser : Obligations.OnlyFeedByteAndResetTouchTheParser := by
  intro i s t hfeed hreset h
  obtain ⟨hbuf, hcnt, hexp⟩ := exec_keepsParser h hfeed hreset
  have hphase : t.phase = s.phase := by rw [State.phase, State.phase, hexp]
  exact ⟨hbuf, hcnt, hexp, hphase⟩

end Sys2Proof.Machine
end

section
/-! O5 and O20. Where the model makes a choice of its own: a step with nothing presented (log entry 20), and operands
outside a rule's domain (log entries 10 and 11). -/

namespace Sys2Proof.Machine

/-- Settles O5: an empty port is the first case of the step. -/
theorem nothingPresentedChangesNothing : Obligations.NothingPresentedChangesNothing := by
  intro s hport
  rw [step, hport]

/-- Settles O20: each of the three meanings tests its operand first. -/
theorem operandsOutsideTheirDomainStop : Obligations.OperandsOutsideTheirDomainStop := by
  refine ⟨fun id payload s hlong => ?_, fun f s hbad => ?_, fun k s hnone => ?_⟩
  · exact if_neg (Nat.not_le.2 hlong)
  · have hlen : ¬(5 ≤ f.length ∧ f.length ≤ 512) := by omega
    exact if_neg hlen
  · exact if_neg (Nat.not_lt.2 hnone)

end Sys2Proof.Machine
end
